-- ==== Sys2Proof/Word.lean ====
section
/-! DEFINITION. The word types of the core: every one a fixed width the spec names. -/

namespace Sys2Proof

/-- A colour component, an IndexBuffer slot, a plane byte or an output byte (R9 `CW`, `IDXW`). -/
abbrev Byte := BitVec 8

/-- An image dimension: `WIDTH`, `HEIGHT` and the `w`, `h` fields (R9 `DIMW`). -/
abbrev Dim := BitVec 16

/-- `CUR`, `COUNT` and the `n` field of `RDIX` (R15, R27, R55). -/
abbrev Word := BitVec 32

/-- A command word `cmd[39:0]` (R53). -/
abbrev Cmd := BitVec 40

end Sys2Proof
end

