-- ==== Sys2Proof/Syntax.lean ====
section
/-! DEFINITION. The commands (R56), one constructor per row of spec/opcode_table.json. The table gives `ABORT` three
rows, one per legal code, and no other code is a command (R57); so a term of `Instr` is always a legal command:
every operand has the width of its field (R55), and what does not fit a field is refused where a command is written
(WellFormed.lean) or decoded (Decode.lean). -/

namespace Sys2Proof

/-- The decoded commands (R56, R58). -/
inductive Instr where
  /-- `DIM w, h`: accept the image dimensions (R60). -/
  | dim (w h : Dim)
  /-- `QPIX r, g, b, a`: quantize the next pixel (R73). -/
  | qpix (r g b a : Byte)
  /-- `LDIX v`: store a given value in the next slot (R78). -/
  | ldix (v : Byte)
  /-- `RDIX n`: read a written slot onto `IDXOUT` (R79). -/
  | rdix (n : Word)
  /-- `PACK`: build the four bit planes (R86). -/
  | pack
  /-- `UNPK`: rebuild the IndexBuffer from the planes (R89). -/
  | unpk
  /-- `EMIT`: write the planes to the output and end the run (R93). -/
  | emit
  /-- `ABORT 1`, `ABORT USAGE` (R100). -/
  | abortUsage
  /-- `ABORT 2`, `ABORT LOAD` (R100). -/
  | abortLoad
  /-- `ABORT 5`, `ABORT WRITE` (R100). -/
  | abortWrite
  deriving DecidableEq, Repr

end Sys2Proof
end

