-- ==== Sys2Proof/WellFormed.lean ====
section
/-! DEFINITION. A command as it is WRITTEN (R59): a mnemonic with natural-number operands, which may or may not fit
the fields of the word. "An operand that does not fit its field is an assembly error, not a truncation": the checks
below are those errors. A term of `Instr` has passed them by its type (Syntax.lean). -/

namespace Sys2Proof

/-- One written command (R59), the pseudo-command `QRGB` among them. -/
inductive Written where
  | dim (w h : Nat)
  | qpix (r g b a : Nat)
  | qrgb (r g b : Nat)
  | ldix (v : Nat)
  | rdix (n : Nat)
  | pack
  | unpk
  | emit
  | abort (code : Nat)
  deriving DecidableEq, Repr

/-- Every operand fits its field (R54, R55, R59); an `ABORT` code is one of 1, 2, 5 (R57). -/
def Written.wellFormed : Written → Bool
  | .dim w h => w < 2 ^ 16 && h < 2 ^ 16
  | .qpix r g b a => r < 2 ^ 8 && g < 2 ^ 8 && b < 2 ^ 8 && a < 2 ^ 8
  | .qrgb r g b => r < 2 ^ 8 && g < 2 ^ 8 && b < 2 ^ 8
  | .ldix v => v < 2 ^ 8
  | .rdix n => n < 2 ^ 32
  | .pack | .unpk | .emit => true
  | .abort code => code == 1 || code == 2 || code == 5

/-- A decoded command, written out again. -/
def Instr.written : Instr → Written
  | .dim w h => .dim w.toNat h.toNat
  | .qpix r g b a => .qpix r.toNat g.toNat b.toNat a.toNat
  | .ldix v => .ldix v.toNat
  | .rdix n => .rdix n.toNat
  | .pack => .pack
  | .unpk => .unpk
  | .emit => .emit
  | .abortUsage => .abort 1
  | .abortLoad => .abort 2
  | .abortWrite => .abort 5

end Sys2Proof
end

