-- ==== Sys2Proof/Decode.lean ====
section
/-! DEFINITION. The decoder, total on 40-bit words, and the encoder (30_encoding.md). A command word is one parallel
40-bit value with no byte form (R53), so the decoder takes the word itself. -/

namespace Sys2Proof

/-- Why a word is illegal: the cases of R57. -/
inductive IllegalWord where
  /-- `op = 0x00` or `op` in `0x09 .. 0xFF`. -/
  | noSuchOpcode
  /-- `op = 0x03` and `cmd[31:8] != 0`. -/
  | ldixHighBits
  /-- `op = 0x05` and `cmd[31:0] != 0`. -/
  | packArgument
  /-- `op = 0x06` and `cmd[31:0] != 0`. -/
  | unpkArgument
  /-- `op = 0x07` and `cmd[31:0] != 0`. -/
  | emitArgument
  /-- `op = 0x08` and `cmd[31:3] != 0`. -/
  | abortHighBits
  /-- `op = 0x08` and `code` in `{0, 3, 4, 6, 7}`. -/
  | abortCode
  deriving DecidableEq, Repr

/-- `op = cmd[39:32]` (R53). -/
def opField (c : Cmd) : BitVec 8 := c.extractLsb' 32 8

/-- `arg = cmd[31:0]` (R53); also the `n` field of format N (R54). -/
def argField (c : Cmd) : BitVec 32 := c.extractLsb' 0 32

/-- Format D, `w = cmd[31:16]` (R54). -/
def wField (c : Cmd) : Dim := c.extractLsb' 16 16

/-- Format D, `h = cmd[15:0]` (R54). -/
def hField (c : Cmd) : Dim := c.extractLsb' 0 16

/-- Format P, `r = cmd[31:24]` (R54). -/
def rField (c : Cmd) : Byte := c.extractLsb' 24 8

/-- Format P, `g = cmd[23:16]` (R54). -/
def gField (c : Cmd) : Byte := c.extractLsb' 16 8

/-- Format P, `b = cmd[15:8]` (R54). -/
def bField (c : Cmd) : Byte := c.extractLsb' 8 8

/-- Format P, `a = cmd[7:0]`; also the `v` field of format V (R54). -/
def aField (c : Cmd) : Byte := c.extractLsb' 0 8

/-- Format V, the must-be-zero bits `cmd[31:8]` (R54). -/
def ldixZeros (c : Cmd) : BitVec 24 := c.extractLsb' 8 24

/-- Format C, the must-be-zero bits `cmd[31:3]` (R54). -/
def abortZeros (c : Cmd) : BitVec 29 := c.extractLsb' 3 29

/-- Format C, `code = cmd[2:0]` (R54). -/
def codeField (c : Cmd) : BitVec 3 := c.extractLsb' 0 3

/-- Format Z: `arg` must be zero (R54, R57). -/
def decodeZ (c : Cmd) (i : Instr) (e : IllegalWord) : Except IllegalWord Instr :=
  if argField c = 0#32 then .ok i else .error e

/-- Format C: `cmd[31:3]` must be zero and the code one of 1, 2, 5 (R57). -/
def decodeAbort (c : Cmd) : Except IllegalWord Instr :=
  if abortZeros c ≠ 0#29 then .error .abortHighBits
  else if codeField c = 1#3 then .ok .abortUsage
  else if codeField c = 2#3 then .ok .abortLoad
  else if codeField c = 5#3 then .ok .abortWrite
  else .error .abortCode

/-- The decoder: R56 for the legal words, R57 for the others, R58 total and the same in every phase. -/
def decode (c : Cmd) : Except IllegalWord Instr :=
  if opField c = 0x01#8 then .ok (.dim (wField c) (hField c))
  else if opField c = 0x02#8 then .ok (.qpix (rField c) (gField c) (bField c) (aField c))
  else if opField c = 0x03#8 then
    if ldixZeros c = 0#24 then .ok (.ldix (aField c)) else .error .ldixHighBits
  else if opField c = 0x04#8 then .ok (.rdix (argField c))
  else if opField c = 0x05#8 then decodeZ c .pack .packArgument
  else if opField c = 0x06#8 then decodeZ c .unpk .unpkArgument
  else if opField c = 0x07#8 then decodeZ c .emit .emitArgument
  else if opField c = 0x08#8 then decodeAbort c
  else .error .noSuchOpcode

/-- The word of a command: the concatenations of R59's table, most significant field first. -/
def encode : Instr → Cmd
  | .dim w h => 0x01#8 ++ w ++ h
  | .qpix r g b a => 0x02#8 ++ r ++ g ++ b ++ a
  | .ldix v => 0x03#8 ++ 0#24 ++ v
  | .rdix n => 0x04#8 ++ n
  | .pack => 0x05#8 ++ 0#32
  | .unpk => 0x06#8 ++ 0#32
  | .emit => 0x07#8 ++ 0#32
  | .abortUsage => 0x08#8 ++ 0#29 ++ 1#3
  | .abortLoad => 0x08#8 ++ 0#29 ++ 2#3
  | .abortWrite => 0x08#8 ++ 0#29 ++ 5#3

/-- One row of the opcode map: a word `c` is the row's command when `c & mask = match` (R56). -/
structure OpcodeRow where
  mask : Cmd
  pattern : Cmd
  deriving DecidableEq, Repr

/-- The row of the opcode map (R56) that a command belongs to. -/
def Instr.row : Instr → OpcodeRow
  | .dim _ _ => ⟨0xFF00000000#40, 0x0100000000#40⟩
  | .qpix _ _ _ _ => ⟨0xFF00000000#40, 0x0200000000#40⟩
  | .ldix _ => ⟨0xFFFFFFFF00#40, 0x0300000000#40⟩
  | .rdix _ => ⟨0xFF00000000#40, 0x0400000000#40⟩
  | .pack => ⟨0xFFFFFFFFFF#40, 0x0500000000#40⟩
  | .unpk => ⟨0xFFFFFFFFFF#40, 0x0600000000#40⟩
  | .emit => ⟨0xFFFFFFFFFF#40, 0x0700000000#40⟩
  | .abortUsage => ⟨0xFFFFFFFFFF#40, 0x0800000001#40⟩
  | .abortLoad => ⟨0xFFFFFFFFFF#40, 0x0800000002#40⟩
  | .abortWrite => ⟨0xFFFFFFFFFF#40, 0x0800000005#40⟩

/-- All ten rows of the opcode map, in the table's order (R56). -/
def opcodeRows : List OpcodeRow :=
  [Instr.dim 0 0, .qpix 0 0 0 0, .ldix 0, .rdix 0, .pack, .unpk, .emit, .abortUsage, .abortLoad, .abortWrite].map
    Instr.row

/-- A word belongs to a row (R56). -/
def OpcodeRow.covers (row : OpcodeRow) (c : Cmd) : Bool := (c &&& row.mask) == row.pattern

/-- The command word whose bits are `w`, with every bit above `nbits` zero: one parallel word, so the table's
numbering is the word's own (R53; log entry 8). -/
def tableWord (nbits w : Nat) : Cmd := BitVec.ofNat 40 (w % 2 ^ nbits)

/-- The command the decoder reads from a word numbered as spec/opcode_table.json numbers it. -/
def decodeTableWord (nbits w : Nat) : Option Instr := (decode (tableWord nbits w)).toOption

end Sys2Proof
end

