-- ==== Sys2Proof/Config.lean ====
section
/-! DEFINITION. What one instance of the core fixes: the OPEN parameters of R9, as one plain value. The model
carries that value in `State.params`, where no step writes it (log entry 1), so that a statement over all states is
a statement for every value of every parameter. The FIXED and decided parameters (`NPAL` 16, `CW` 8, `NPLANE` 4,
`PPB` 8, `DIMW` 16, `IDXW` 8, `CMDW` 40) are the types and literals of the model. -/

namespace Sys2Proof

/-- One palette entry: three 8-bit unsigned components (R21). -/
structure Color where
  r : Byte
  g : Byte
  b : Byte
  deriving DecidableEq, Repr

/-- The palette table `PAL[0 .. 15]` (R21). -/
abbrev Palette := Vector Color 16

/-- The OPEN parameters of R9. `exitNz` is 8 bits wide because the output `EXIT` is (R17). -/
structure Params where
  pal : Palette
  idxCap : Nat
  plnCap : Nat
  exitNz : Byte
  deriving DecidableEq, Repr

/-- Black and white as numbers: [from general knowledge, not in source] (R65 (b), G2; log entry 3, PRESUMED). -/
def Color.black : Color := { r := 0, g := 0, b := 0 }

/-- See `Color.black`. -/
def Color.white : Color := { r := 255, g := 255, b := 255 }

/-- `PAL_EGA`, the default palette (R66): [from general knowledge, not in source] (log entry 3, PRESUMED). -/
def Palette.ega : Palette := #v[
  { r := 0, g := 0, b := 0 }, { r := 0, g := 0, b := 170 },
  { r := 0, g := 170, b := 0 }, { r := 0, g := 170, b := 170 },
  { r := 170, g := 0, b := 0 }, { r := 170, g := 0, b := 170 },
  { r := 170, g := 85, b := 0 }, { r := 170, g := 170, b := 170 },
  { r := 85, g := 85, b := 85 }, { r := 85, g := 85, b := 255 },
  { r := 85, g := 255, b := 85 }, { r := 85, g := 255, b := 255 },
  { r := 255, g := 85, b := 85 }, { r := 255, g := 85, b := 255 },
  { r := 255, g := 255, b := 85 }, { r := 255, g := 255, b := 255 }]

/-- The defaults R9 recommends for the OPEN parameters. -/
def Params.default : Params :=
  { pal := Palette.ega, idxCap := 262144, plnCap := 32768, exitNz := 1 }

/-- `PAL[i]` (R21). -/
def Palette.entry (pal : Palette) (i : Fin 16) : Color := pal[i]

/-- The entries are pairwise distinct (R9, R65 (c)). -/
abbrev Palette.Distinct (pal : Palette) : Prop := ∀ i j : Fin 16, pal.entry i = pal.entry j → i = j

/-- Entry 0 is black and entry 15 white, with the numerals of `Color.black` and `Color.white` (R65 (b), G2). -/
abbrev Palette.BlackWhite (pal : Palette) : Prop := pal.entry 0 = Color.black ∧ pal.entry 15 = Color.white

/-- The constraints R9 puts on the OPEN parameters, less the two colours that have no numbers in the source
(`Palette.BlackWhite`). -/
abbrev Params.Valid (p : Params) : Prop :=
  p.pal.Distinct ∧ 8 ≤ p.idxCap ∧ 1 ≤ p.plnCap ∧ p.exitNz ≠ 0

end Sys2Proof
end

