-- ==== Sys2Proof/Machine/State.lean ====
section
/-! DEFINITION. The state of the core (R11), the host's actions still to come, the reasons a step can stop, and the
state after reset (R32). -/

namespace Sys2Proof.Machine

/-- `PHASE` (R29). The values 5 and 6 are never written, so the type leaves them out (93 U11). The port shows the
code that `Phase.code` gives. -/
inductive Phase where
  | idle
  | fill
  | ready
  | packed
  | done
  | halt
  deriving DecidableEq, Repr

/-- `ERR` (R14, R103). The value 7 is never written, so the type leaves it out (93 U11). The port shows the code that
`Cause.code` gives. -/
inductive Cause where
  | none
  | usageError
  | resourceLoadError
  | constraintViolation
  | allocationFailure
  | outputWriteError
  | illegalCommand
  deriving DecidableEq, Repr

/-- What the host does to the core between commands that changes it (R119): assert `rst`, or present a command word.
Reading a port or `OUT` changes nothing (R18) and so is no action. -/
inductive HostAction where
  /-- Assert `rst` (R126). -/
  | reset
  /-- Present a command word on the command port (R53). -/
  | command (word : Cmd)
  deriving DecidableEq, Repr

/-- The reasons a step stops. A trap of the core is none of them: it is a next state (R112). -/
inductive Fault where
  /-- A command is presented in `DONE` or `HALT`, where the core has no step whatever the word (R31, U10). Raised by
  every meaning and by an illegal word. Safe: nothing goes on from here. -/
  | noStep
  /-- An access to `IDX[n]` with `n >= IDXCAP`, a slot that does not exist (R22). Raised by `QPIX`, `LDIX`, `RDIX`,
  `PACK`, `UNPK` in states that no run reaches (R47). Safe. -/
  | idxNoSlot
  /-- A read of a slot of `IDX` that holds no value (R32, U2). Raised by `RDIX` and `PACK` in states that no run
  reaches (R22). Safe. -/
  | idxNoValue
  /-- An access to `PLN[p][o]` with `o >= PLNCAP`, a byte that does not exist (R23). Raised by `PACK`, `UNPK`, `EMIT`
  in states that no run reaches (R47). Safe. -/
  | plnNoByte
  /-- A read of a byte of `PLN` that holds no value (R32, U2). Raised by `PACK`, `UNPK` and `EMIT` in states that no
  run reaches (R23). Safe. -/
  | plnNoValue
  /-- `PACK` or `UNPK` would run with `WIDTH mod 8 != 0`, a width for which the packer has no meaning: a model "must not
  run" it (R87, U7; log entry 18). Raised by `PACK` and `UNPK` in states that no run reaches (R63). Safe. -/
  | widthNotAligned
  deriving DecidableEq, Repr

/-- The refusals: only that of an instruction without a meaning, and every instruction has one. -/
inductive Refusal where
  /-- Not modelled yet. Raised by no arm of `exec`. Safe. -/
  | notModelled (mnemonic : String)
  deriving DecidableEq, Repr

/-- A memory of bytes: (address, byte) pairs, addresses strictly rising. An address that is not listed holds NO VALUE
(R32: "a model treats them as holding no value"; log entry 4). -/
abbrev Mem := List Host.Cell

/-- The canonical form: addresses strictly rising. No entry can equal what an unlisted address reads as, since an
unlisted address reads as no value and an entry is a value. -/
abbrev Mem.wf (m : Mem) : Prop := (m.map Prod.fst).Pairwise (· < ·)

/-- The state: the items of R11's table, and two fields of the model's own, `params` and `host`. -/
structure State where
  /-- The OPEN parameters of R9, written by no step (log entry 1). -/
  params : Params
  /-- `WIDTH` (R12). -/
  width : Dim
  /-- `HEIGHT` (R13). -/
  height : Dim
  /-- `CUR` (R27): slots filled so far. -/
  cur : Word
  /-- `PHASE` (R29). -/
  phase : Phase
  /-- `ERR` (R14). -/
  err : Cause
  /-- `COUNT` (R15). -/
  count : Word
  /-- `IDXOUT` (R16). -/
  idxout : Byte
  /-- `IDX` (R22), addressed by slot. -/
  idx : Mem
  /-- `PLN` (R23), addressed by plane and then by byte offset. -/
  pln : Vector Mem 4
  /-- `OUT` (R24). -/
  out : List Byte
  /-- What the host will do, next action first (R19; log entry 2). The core has no queue of commands (R135). -/
  host : List HostAction
  deriving DecidableEq, Repr

/-- The state after reset (R32), with the parameters at the defaults R9 recommends (log entry 1) and a host that does
nothing (log entry 2). -/
def State.reset : State :=
  { params := Params.default
    width := 0
    height := 0
    cur := 0
    phase := .idle
    err := .none
    count := 0
    idxout := 0
    idx := []
    pln := #v[[], [], [], []]
    out := []
    host := [] }

end Sys2Proof.Machine
end

