-- ==== Sys2Proof/Machine/Ops.lean ====
section
/-! DEFINITION. The named operations: register writes, the two memories, the admission check, taking an exception
(R112) and the reset input (R126). The meanings are written over these. -/

namespace Sys2Proof.Machine

/-- What a meaning answers. -/
abbrev Result := Host.Outcome State Fault Refusal

/-! ## Register writes (`NAME <- v`, R10) -/

/-- The dimensions `DIM` accepts: `WIDTH <- w`, `HEIGHT <- h`. -/
def State.setDims (s : State) (w h : Dim) : State := { s with width := w, height := h }

def State.setCur (s : State) (n : Word) : State := { s with cur := n }

def State.setPhase (s : State) (p : Phase) : State := { s with phase := p }

def State.setErr (s : State) (c : Cause) : State := { s with err := c }

def State.setCount (s : State) (n : Word) : State := { s with count := n }

def State.setIdxout (s : State) (v : Byte) : State := { s with idxout := v }

def State.setIdx (s : State) (m : Mem) : State := { s with idx := m }

def State.setPln (s : State) (m : Vector Mem 4) : State := { s with pln := m }

def State.setOut (s : State) (bytes : List Byte) : State := { s with out := bytes }

/-- The host's actions still to come (log entry 2). -/
def State.setHost (s : State) (acts : List HostAction) : State := { s with host := acts }

/-! ## Derived quantities (R28) -/

/-- `NPIX = WIDTH * HEIGHT`, exact (R28, R10). -/
def State.npix (s : State) : Nat := s.width.toNat * s.height.toNat

/-- `PS = NPIX / 8`, the plane size in bytes (R28, R83). -/
def State.ps (s : State) : Nat := s.npix / 8

/-! ## Phases -/

/-- The live phases (R53, glossary): those in which `cmd_ready` is asserted and a command has a step. -/
def Phase.live : Phase → Bool
  | .idle | .fill | .ready | .packed => true
  | .done | .halt => false

/-! ## Memories -/

/-- The value at an address, `none` where no value is held (R32, U2; log entry 4). -/
def Mem.read : Mem → Nat → Option Byte
  | [], _ => none
  | (b, v) :: m, a => if b = a then some v else Mem.read m a

/-- Write one byte, keeping the canonical form. -/
def Mem.write : Mem → Nat → Byte → Mem
  | [], a, v => [(a, v)]
  | (b, u) :: m, a, v =>
    if a < b then (a, v) :: (b, u) :: m
    else if a = b then (a, v) :: m
    else (b, u) :: Mem.write m a v

/-- Four planes holding no value. -/
def noPlanes : Vector Mem 4 := #v[[], [], [], []]

/-- `PLN[p]` (R23). -/
def State.plane (s : State) (p : Fin 4) : Mem := s.pln[p]

/-- `PLN[p]` replaced. -/
def State.setPlane (s : State) (p : Fin 4) (m : Mem) : State := s.setPln (s.pln.set p m)

/-- `IDX[n]` (R22). -/
def readIdx (s : State) (n : Nat) : Except Fault Byte :=
  if n < s.params.idxCap then
    match s.idx.read n with
    | some v => .ok v
    | none => .error .idxNoValue
  else .error .idxNoSlot

/-- `IDX[n] <- v` (R22). -/
def writeIdx (s : State) (n : Nat) (v : Byte) : Except Fault State :=
  if n < s.params.idxCap then .ok (s.setIdx (s.idx.write n v)) else .error .idxNoSlot

/-- `PLN[p][o]` (R23). -/
def readPln (s : State) (p : Fin 4) (o : Nat) : Except Fault Byte :=
  if o < s.params.plnCap then
    match (s.plane p).read o with
    | some v => .ok v
    | none => .error .plnNoValue
  else .error .plnNoByte

/-- `PLN[p][o] <- v` (R23). -/
def writePln (s : State) (p : Fin 4) (o : Nat) (v : Byte) : Except Fault State :=
  if o < s.params.plnCap then .ok (s.setPlane p ((s.plane p).write o v)) else .error .plnNoByte

/-! ## Outcomes -/

/-- A command's assignments as one atomic step (R44): the new state, or the fault of the access that failed. -/
def commit : Except Fault State → Result
  | .ok s => .next s
  | .error f => .fault f

/-- Trap entry, `raise E` (R112): `ERR <- c`, `PHASE <- HALT`; the raising command performs none of its own
assignments; `WIDTH HEIGHT CUR COUNT IDXOUT OUT` keep their values; the contents of `IDX` and `PLN` become
unspecified, so the model forgets them: they hold no value (log entry 5). Nothing is saved and control goes nowhere:
there is no vector, no handler and no return from a trap (R112, R114). -/
def raise (c : Cause) (s : State) : Result :=
  .next ((((s.setErr c).setPhase .halt).setIdx []).setPln noPlanes)

/-- The first checks of a presented command (R58 (1) and (3), R30, R31): in `DONE` and `HALT` there is no step; in a
live phase that does not accept the command, `raise IllegalCommand`; else the command's own rule. -/
def whenAdmitted (phases : List Phase) (s : State) (body : Result) : Result :=
  if s.phase.live then
    if s.phase ∈ phases then body else raise .illegalCommand s
  else .fault .noStep

/-- A presented word that is not a legal encoding (R57, R58 (1) and (2)): no step in `DONE` and `HALT`, else
`raise IllegalCommand`. -/
def illegalWord (s : State) : Result :=
  if s.phase.live then raise .illegalCommand s else .fault .noStep

/-! ## Reset and waiting -/

/-- The state the reset input leaves (R126): every register at its reset value (R32), `OUT` empty, `PAL` and the
other parameters as they are, `IDX` and `PLN` unspecified (no value). It is the one way out of `DONE` and `HALT`:
what stands in for a return from a trap (R114). The host's later actions are the host's, not the core's. -/
def resetCore (s : State) : State :=
  { State.reset with params := s.params, host := s.host }

/-- Asserting `rst` (R126), in any phase. -/
def resetPin (s : State) : Result := .next (resetCore s)

/-- The host does nothing: a core in a live phase waits for a command, a core in `DONE` or `HALT` waits for reset
(R124). -/
def hostIdle (s : State) : Result := .next s

end Sys2Proof.Machine
end

