-- ==== Sys2Proof/Machine/Abort.lean ====
section
/-! DEFINITION. `ABORT` (45_abort.md), one meaning per legal code (R57, R100): the command's own effect is to end the
run with the error kind the host's adapters detected. Another code is no command: the decoder refuses the word, and
presenting it raises `IllegalCommand` (R58). -/

namespace Sys2Proof.Machine

/-- `ABORT 1` (R100, R104): in `IDLE`, `raise UsageError`. -/
def execAbortUsage (s : State) : Result := whenAdmitted [.idle] s (raise .usageError s)

/-- `ABORT 2` (R100, R105): in `IDLE`, `raise ResourceLoadError`. -/
def execAbortLoad (s : State) : Result := whenAdmitted [.idle] s (raise .resourceLoadError s)

/-- `ABORT 5` (R100, R108): in `PACKED`, `raise OutputWriteError`. -/
def execAbortWrite (s : State) : Result := whenAdmitted [.packed] s (raise .outputWriteError s)

end Sys2Proof.Machine
end

