-- ==== Sys2Proof/Machine/ImageSetup.lean ====
section
/-! DEFINITION. Image set-up: `DIM` (40_image_setup.md). -/

namespace Sys2Proof.Machine

/-- `DIM w, h` (R60): the checks in the order R62 and R111 give them, then the assignments. The product is exact. -/
def execDim (w h : Dim) (s : State) : Result :=
  whenAdmitted [.idle] s <|
    if w = 0#16 ∨ h = 0#16 then raise .constraintViolation s
    else if w.toNat % 8 ≠ 0 then raise .constraintViolation s
    else if s.params.idxCap < w.toNat * h.toNat then raise .allocationFailure s
    else .next (((s.setDims w h).setCur 0).setPhase .fill)

end Sys2Proof.Machine
end

