-- ==== Sys2Proof/Machine/Flags.lean ====
section
/-! DEFINITION. The core has no flags and no condition codes (R26). What it has is status: the codes of `PHASE` and
`ERR`, the output `EXIT`, the status ports, and the advance of (`CUR`, `PHASE`) that stands in for a program
counter. -/

namespace Sys2Proof.Machine

/-- The value of `PHASE` on its port (R29). -/
def Phase.code : Phase → BitVec 3
  | .idle => 0
  | .fill => 1
  | .ready => 2
  | .packed => 3
  | .done => 4
  | .halt => 7

/-- The value of `ERR` on its port (R14, R103). -/
def Cause.code : Cause → BitVec 3
  | .none => 0
  | .usageError => 1
  | .resourceLoadError => 2
  | .constraintViolation => 3
  | .allocationFailure => 4
  | .outputWriteError => 5
  | .illegalCommand => 6

/-- `EXIT` in `HALT`, by cause (R17, R103). `HALT` with `ERR = NONE`, which no run reaches (R33 item 7), is in no case
of R17; the value there is that of R103's row for `NONE` (log entry 6, DEDUCED). -/
def Cause.exitStatus (exitNz : Byte) : Cause → Byte
  | .none => 0
  | .usageError | .constraintViolation | .illegalCommand => 1
  | .resourceLoadError | .allocationFailure | .outputWriteError => exitNz

/-- The output `EXIT` (R17): no state of its own. -/
def exitPort (s : State) : Byte :=
  if s.phase = .halt then s.err.exitStatus s.params.exitNz else 0

/-- `cmd_ready` (R53): asserted exactly in the live phases. -/
def cmdReady (s : State) : Bool := s.phase.live

/-- The output ports of the core (R53; 92 D2). -/
structure Ports where
  cmdReady : Bool
  phase : BitVec 3
  err : BitVec 3
  width : Dim
  height : Dim
  cur : Word
  count : Word
  idxout : Byte
  exit : Byte
  deriving DecidableEq, Repr

/-- What the host reads on the ports between commands (R18, R119): a function of the state, without effect. -/
def ports (s : State) : Ports :=
  { cmdReady := cmdReady s
    phase := s.phase.code
    err := s.err.code
    width := s.width
    height := s.height
    cur := s.cur
    count := s.count
    idxout := s.idxout
    exit := exitPort s }

/-- `CUR <- CUR + 1`; `PHASE <- READY` when the new `CUR` equals `NPIX` (R27, R29, R73, R78). The comparison is on
exact naturals (R10). -/
def advance (s : State) : State :=
  (s.setCur (BitVec.ofNat 32 (s.cur.toNat + 1))).setPhase
    (if s.cur.toNat + 1 = s.npix then .ready else s.phase)

/-- Fill the next slot: `IDX[CUR] <- v`, then the advance (R73, R78, R80). The slot written is the old `CUR`. -/
def fillNext (s : State) (v : Byte) : Except Fault State := do
  let t ← writeIdx s s.cur.toNat v
  return advance t

end Sys2Proof.Machine
end

