-- ==== Sys2Proof/Machine/IndexAccess.lean ====
section
/-! DEFINITION. Direct access to the IndexBuffer: `LDIX` and `RDIX` (42_index_access.md). -/

namespace Sys2Proof.Machine

/-- `LDIX v` (R78): all 8 bits into the next slot; `IDXOUT` is not written. -/
def execLdix (v : Byte) (s : State) : Result :=
  whenAdmitted [.fill] s <| commit (fillNext s v)

/-- `RDIX n` (R79): a slot not written in this run raises `IllegalCommand`; else `IDXOUT <- IDX[n]`, all 8 bits. -/
def execRdix (n : Word) (s : State) : Result :=
  whenAdmitted [.fill, .ready, .packed] s <|
    if s.cur.toNat ≤ n.toNat then raise .illegalCommand s
    else commit (do
      let v ← readIdx s n.toNat
      return s.setIdxout v)

end Sys2Proof.Machine
end

