-- ==== Sys2Proof/Machine/Operands.lean ====
section
/-! DEFINITION. The operand forms. A command's operands are the fields of its word (R55, Decode.lean); the addresses a
memory-touching command uses are `CUR`, `n`, or a sweep of the used part (R55), and the sweep's address forms are
here (R37, R38, R39). -/

namespace Sys2Proof.Machine

/-- The column of the pixel at linear position `n`: `x = n mod WIDTH` (R37). -/
def column (width n : Nat) : Nat := n % width

/-- The row of the pixel at linear position `n`: `y = n / WIDTH` (R37). -/
def row (width n : Nat) : Nat := n / width

/-- The linear position of the pixel at column `x` and row `y`: `n = y*WIDTH + x` (R37). -/
def position (width x y : Nat) : Nat := y * width + x

/-- `byte_offset = n / 8`, the same in all four planes (R38). -/
def byteOffset (n : Nat) : Nat := n / 8

/-- `bit = 7 - (x mod 8)`, from the COLUMN, not from the stream position (R38, R87, C2). -/
def bitPosition (width n : Nat) : Nat := 7 - column width n % 8

/-- The position of byte `(p, o)` in the output: `f = p*PS + o` (R39). -/
def outPosition (ps p o : Nat) : Nat := p * ps + o

/-- `zext_8` of a 4-bit palette index (R4 of the notation, R73). -/
def zext8 (i : Fin 16) : Byte := BitVec.ofNat 8 i.val

end Sys2Proof.Machine
end

