-- ==== Sys2Proof/Machine/PlanarPacker.lean ====
section
/-! DEFINITION. The planar packer and its inverse: `PACK` and `UNPK` (43_planar_packer.md). `PACK` runs the source's
pixel-by-pixel algorithm with the column form of the bit position (R84, R87); the closed form, a gather and a bit
permutation (R85), stands beside it as a function of eight slots. -/

namespace Sys2Proof.Machine

/-! ## PACK -/

/-- `PLN[p][o] <- 0` for the four planes at one offset (R91). -/
def zeroByte (s : State) (o : Nat) : Except Fault State := do
  let s ← writePln s 0 o 0
  let s ← writePln s 1 o 0
  let s ← writePln s 2 o 0
  writePln s 3 o 0

/-- Zero the bytes at offsets `0 .. k-1` of all four planes (R86, R91). -/
def zeroBelow (s : State) : Nat → Except Fault State
  | 0 => .ok s
  | k + 1 => do
    let t ← zeroBelow s k
    zeroByte t k

/-- One plane's turn for one pixel (R84): set bit `k` of `PLN[p][o]` when bit `p` of the index is 1, else leave it. -/
def packBit (v : Byte) (o k : Nat) (s : State) (p : Fin 4) : Except Fault State :=
  if v.getLsbD p.val then do
    let b ← readPln s p o
    writePln s p o (b ||| (1#8 <<< k))
  else .ok s

/-- One pixel's turn of the reference algorithm (R84): mask to 4 bits, byte `n / 8`, bit `7 - (x mod 8)`, four
planes. -/
def packPixel (s : State) (n : Nat) : Except Fault State := do
  let slot ← readIdx s n
  let v := slot &&& 0x0F#8
  let o := byteOffset n
  let k := bitPosition s.width.toNat n
  let s ← packBit v o k s 0
  let s ← packBit v o k s 1
  let s ← packBit v o k s 2
  packBit v o k s 3

/-- The pixels `0 .. k-1`, ascending (R84). -/
def packBelow (s : State) : Nat → Except Fault State
  | 0 => .ok s
  | k + 1 => do
    let t ← packBelow s k
    packPixel t k

/-- `PACK` (R86): the capacity check, the zeroing, the algorithm over all pixels, `PHASE <- PACKED`. With a width that
breaks R41, which no run has, it must not run (R87), and the model's choice is to stop (log entry 18). -/
def execPack (s : State) : Result :=
  whenAdmitted [.ready] s <|
    if s.params.plnCap < s.ps then raise .allocationFailure s
    else if s.width.toNat % 8 ≠ 0 then .fault .widthNotAligned
    else commit (do
      let z ← zeroBelow s s.ps
      let t ← packBelow z s.npix
      return t.setPhase .packed)

/-! ## The closed form (R85) -/

/-- One bit as a number, `bit(v, k)` of the notation. -/
def bitNat (v : Byte) (k : Nat) : Nat := (v.getLsbD k).toNat

/-- The byte of plane `p` made of a group of eight slots (R85): the sum over `j` of
`bit(slot j & 0xF, p) << (7 - j)`; the leftmost pixel lands in the most significant bit. -/
def packGroup (slots : Fin 8 → Byte) (p : Fin 4) : Byte :=
  BitVec.ofNat 8
    (bitNat (slots 0 &&& 0x0F#8) p.val <<< 7 + bitNat (slots 1 &&& 0x0F#8) p.val <<< 6 +
     bitNat (slots 2 &&& 0x0F#8) p.val <<< 5 + bitNat (slots 3 &&& 0x0F#8) p.val <<< 4 +
     bitNat (slots 4 &&& 0x0F#8) p.val <<< 3 + bitNat (slots 5 &&& 0x0F#8) p.val <<< 2 +
     bitNat (slots 6 &&& 0x0F#8) p.val <<< 1 + bitNat (slots 7 &&& 0x0F#8) p.val <<< 0)

/-- The index of the pixel at bit `k` of four plane bytes (R88): the sum over `p` of `bit(byte p, k) << p`. -/
def unpackBits (bytes : Fin 4 → Byte) (k : Nat) : Byte :=
  BitVec.ofNat 8
    (bitNat (bytes 0) k <<< 0 + bitNat (bytes 1) k <<< 1 + bitNat (bytes 2) k <<< 2 + bitNat (bytes 3) k <<< 3)

/-! ## UNPK -/

/-- `Unpack(n)` (R88), the same bit of the same byte in the four planes, zero-extended to a slot. -/
def unpackPixel (s : State) (n : Nat) : Except Fault Byte := do
  let o := byteOffset n
  let b0 ← readPln s 0 o
  let b1 ← readPln s 1 o
  let b2 ← readPln s 2 o
  let b3 ← readPln s 3 o
  return unpackBits (fun p => #v[b0, b1, b2, b3][p]) (bitPosition s.width.toNat n)

/-- `IDX[n] <- zext_8(Unpack(n))` for the pixels `0 .. k-1` (R89). -/
def unpackBelow (s : State) : Nat → Except Fault State
  | 0 => .ok s
  | k + 1 => do
    let t ← unpackBelow s k
    let v ← unpackPixel t k
    writeIdx t k v

/-- `UNPK` (R89): every used slot rebuilt; `PLN`, `CUR` and `PHASE` stay. With a width that breaks R41, which no run
has, the model's choice is to stop, as for `PACK` (R87, log entry 18). -/
def execUnpk (s : State) : Result :=
  whenAdmitted [.packed] s <|
    if s.width.toNat % 8 ≠ 0 then .fault .widthNotAligned
    else commit (unpackBelow s s.npix)

end Sys2Proof.Machine
end

