-- ==== Sys2Proof/Machine/Quantizer.lean ====
section
/-! DEFINITION. The quantizer (41_quantizer.md): the distance units, the reference scan, the comparator tree with its
multiplexer, and `QPIX`. The scan is what `QPIX` uses; the tree is the hardware form of the same function (R71). -/

namespace Sys2Proof.Machine

/-- `r`, `g`, `b` of one pixel (R55); alpha does not enter (R68, R74). -/
structure Pixel where
  r : Byte
  g : Byte
  b : Byte
  deriving DecidableEq, Repr

/-- `sq(v) = v * v` on exact integers (R10). -/
def sq (v : Int) : Int := v * v

/-- The distance of a pixel to one colour (R68): signed exact differences, exact squares, exact sum. -/
def distance (c : Color) (px : Pixel) : Nat :=
  let dr : Int := px.r.toNat - c.r.toNat
  let dg : Int := px.g.toNat - c.g.toNat
  let db : Int := px.b.toNat - c.b.toNat
  (sq dr + sq dg + sq db).toNat

/-- Distance unit `j` (R68). -/
def unitDistance (pal : Palette) (px : Pixel) (j : Fin 16) : Nat := distance (pal.entry j) px

/-- The entries the scan visits after entry 0, ascending (R69). -/
def scanOrder : List (Fin 16) := [1, 2, 3, 4, 5, 6, 7, 8, 9, 10, 11, 12, 13, 14, 15]

/-- One turn of the reference scan on `(bestd, best)`: a strict `<` against the running best (R69, R70). -/
def scanStep (d : Fin 16 → Nat) (best : Nat × Fin 16) (j : Fin 16) : Nat × Fin 16 :=
  if d j < best.1 then (d j, j) else best

/-- `Quant` by the reference scan (R69). -/
def quant (pal : Palette) (px : Pixel) : Fin 16 :=
  (scanOrder.foldl (scanStep (unitDistance pal px)) (unitDistance pal px 0, 0)).2

/-- A node of the comparator tree with its multiplexer (R71, R72): the high input wins only when strictly nearer. -/
def treeNode (low high : Nat × Fin 16) : Nat × Fin 16 := if high.1 < low.1 then high else low

/-- The output of the subtree of `k` levels over the leaves `base .. base + 2^k - 1` (R71): leaf `j` carries
`(d_j, j)`; a node joins the subtree of lower indices with that of higher ones. -/
def subtree (d : Fin 16 → Nat) : Nat → Nat → Nat × Fin 16
  | 0, base => (d (Fin.ofNat 16 base), Fin.ofNat 16 base)
  | k + 1, base => treeNode (subtree d k base) (subtree d k (base + 2 ^ k))

/-- `Quant` by the comparator tree: the index at the root of the four levels (R71, R72). -/
def quantTree (pal : Palette) (px : Pixel) : Fin 16 := (subtree (unitDistance pal px) 4 0).2

/-- The 22-bit key `{d[17:0], i[3:0]}` of entry `j` (R71), as a number. -/
def treeKey (pal : Palette) (px : Pixel) (j : Fin 16) : Nat := unitDistance pal px j * 16 + j.val

/-- `QPIX r, g, b, a` (R73): `IDX[CUR]` and `IDXOUT` take the index, `CUR` and `PHASE` advance. `a` is accepted and
ignored (R74). -/
def execQpix (r g b _a : Byte) (s : State) : Result :=
  whenAdmitted [.fill] s <|
    let i := zext8 (quant s.params.pal { r := r, g := g, b := b })
    commit (do
      let t ← fillNext s i
      return t.setIdxout i)

end Sys2Proof.Machine
end

