-- ==== Sys2Proof/Machine/RawWriter.lean ====
section
/-! DEFINITION. The raw writer: `EMIT` (44_raw_writer.md). -/

namespace Sys2Proof.Machine

/-- The bytes of plane `p` at offsets `0 .. k-1`, ascending (R92). -/
def planeBytes (s : State) (p : Fin 4) : Nat → Except Fault (List Byte)
  | 0 => .ok []
  | k + 1 => do
    let bytes ← planeBytes s p k
    let b ← readPln s p k
    return bytes ++ [b]

/-- The used bytes of the four planes, plane 0 first, with nothing between them (R92). -/
def outputBytes (s : State) : Except Fault (List Byte) := do
  let p0 ← planeBytes s 0 s.ps
  let p1 ← planeBytes s 1 s.ps
  let p2 ← planeBytes s 2 s.ps
  let p3 ← planeBytes s 3 s.ps
  return p0 ++ p1 ++ p2 ++ p3

/-- `EMIT` (R93): append all `4 * PS` bytes in one step, `COUNT <- 4 * PS`, `PHASE <- DONE`. -/
def execEmit (s : State) : Result :=
  whenAdmitted [.packed] s <|
    commit (do
      let bytes ← outputBytes s
      return ((s.setOut (s.out ++ bytes)).setCount (BitVec.ofNat 32 (4 * s.ps))).setPhase .done)

end Sys2Proof.Machine
end

