-- ==== Sys2Proof/Machine/Dispatch.lean ====
section
/-! DEFINITION. The dispatch of a decoded command to its meaning. -/

namespace Sys2Proof.Machine

def exec (i : Instr) (s : State) : Host.Outcome State Fault Refusal :=
  match i with
  | .dim w h => Sys2Proof.Machine.execDim w h s
  | .qpix r g b a => Sys2Proof.Machine.execQpix r g b a s
  | .ldix v => Sys2Proof.Machine.execLdix v s
  | .rdix n => Sys2Proof.Machine.execRdix n s
  | .pack => Sys2Proof.Machine.execPack s
  | .unpk => Sys2Proof.Machine.execUnpk s
  | .emit => Sys2Proof.Machine.execEmit s
  | .abortUsage => Sys2Proof.Machine.execAbortUsage s
  | .abortLoad => Sys2Proof.Machine.execAbortLoad s
  | .abortWrite => Sys2Proof.Machine.execAbortWrite s

end Sys2Proof.Machine
end

