-- ==== Sys2Proof/Machine/Step.lean ====
section
/-! DEFINITION. One step of the machine: the host's next action, taken (R19, R119). Nothing happens between two
actions (R7). -/

namespace Sys2Proof.Machine

/-- The host does nothing, asserts `rst`, or presents a word, which is decoded and, when legal, executed (R58). -/
def step (s : State) : Host.Outcome State Fault Refusal :=
  match s.host with
  | [] => hostIdle s
  | .reset :: rest => resetPin (s.setHost rest)
  | .command w :: rest =>
    match decode w with
    | .ok i => exec i (s.setHost rest)
    | .error _ => illegalWord (s.setHost rest)

/-- The host presents that word next; its other actions come after (log entry 7). -/
def State.withFetchWord (s : State) (nbits w : Nat) : State :=
  s.setHost (.command (tableWord nbits w) :: s.host)

end Sys2Proof.Machine
end

