-- ==== Sys2Proof/Machine/Assembler.lean ====
section
/-! DEFINITION. The assembler syntax of R59: from a written command to its word, and from a line of text to a written
command. No part of the machine; it reads the programs the spec writes. -/

namespace Sys2Proof.Machine

/-- Why a line is an assembly error (R59). -/
inductive AsmError where
  /-- An operand that does not fit its field, or an `ABORT` code that is not one of 1, 2, 5. -/
  | operandRange
  /-- A word at the start of the line that is no mnemonic. -/
  | unknownMnemonic
  /-- Too few or too many operands. -/
  | operandCount
  /-- An operand that is no number. -/
  | badNumber
  deriving DecidableEq, Repr

/-- The command a well-formed written command stands for; `QRGB r, g, b` is `QPIX r, g, b, 0xFF` (R59). -/
def writtenInstr : Written → Instr
  | .dim w h => .dim (BitVec.ofNat 16 w) (BitVec.ofNat 16 h)
  | .qpix r g b a => .qpix (BitVec.ofNat 8 r) (BitVec.ofNat 8 g) (BitVec.ofNat 8 b) (BitVec.ofNat 8 a)
  | .qrgb r g b => .qpix (BitVec.ofNat 8 r) (BitVec.ofNat 8 g) (BitVec.ofNat 8 b) 0xFF
  | .ldix v => .ldix (BitVec.ofNat 8 v)
  | .rdix n => .rdix (BitVec.ofNat 32 n)
  | .pack => .pack
  | .unpk => .unpk
  | .emit => .emit
  | .abort code => if code = 1 then .abortUsage else if code = 2 then .abortLoad else .abortWrite

/-- The word of a written command; an operand that does not fit is an error, not a truncation (R59). -/
def assemble (c : Written) : Except AsmError Cmd :=
  if c.wellFormed then .ok (encode (writtenInstr c)) else .error .operandRange

/-! ## Lines of text (R59) -/

/-- A `;` starts a comment that runs to the end of the line. -/
def stripComment (line : List Char) : List Char := line.takeWhile (· ≠ ';')

/-- White space inside a line. -/
def isBlank (c : Char) : Bool := c == ' ' || c == '\t' || c == '\r' || c == '\n'

/-- A list of characters without the white space around it. -/
def trimBlanks (cs : List Char) : List Char := ((cs.dropWhile isBlank).reverse.dropWhile isBlank).reverse

/-- Capital of a letter: case is not significant. -/
def capital (c : Char) : Char :=
  if 97 ≤ c.toNat ∧ c.toNat ≤ 122 then Char.ofNat (c.toNat - 32) else c

/-- The parts between commas. -/
def splitCommas : List Char → List (List Char)
  | [] => [[]]
  | c :: cs =>
    match splitCommas cs with
    | [] => [[c]]
    | part :: parts => if c = ',' then [] :: part :: parts else (c :: part) :: parts

/-- The value of a digit in bases up to 16. -/
def digitValue (c : Char) : Option Nat :=
  let n := (capital c).toNat
  if 48 ≤ n ∧ n ≤ 57 then some (n - 48)
  else if 65 ≤ n ∧ n ≤ 70 then some (n - 55)
  else none

/-- The digits of a number, most significant first, in a base. -/
def readDigits (base : Nat) (acc : Nat) : List Char → Option Nat
  | [] => some acc
  | c :: cs =>
    match digitValue c with
    | some d => if d < base then readDigits base (acc * base + d) cs else none
    | none => none

/-- A number: decimal, or hexadecimal with `0x`. -/
def readNumber : List Char → Option Nat
  | [] => none
  | '0' :: 'x' :: d :: ds => readDigits 16 0 (d :: ds)
  | d :: ds => readDigits 10 0 (d :: ds)

/-- An `ABORT` operand: a number, or `USAGE` (1), `LOAD` (2), `WRITE` (5). -/
def readCode (cs : List Char) : Option Nat :=
  let name := cs.map capital
  if name = ['U', 'S', 'A', 'G', 'E'] then some 1
  else if name = ['L', 'O', 'A', 'D'] then some 2
  else if name = ['W', 'R', 'I', 'T', 'E'] then some 5
  else readNumber cs

/-- Every operand as a number, or none when one of them is no number. -/
def readAll (read : List Char → Option Nat) : List (List Char) → Option (List Nat)
  | [] => some []
  | cs :: rest =>
    match read cs, readAll read rest with
    | some n, some ns => some (n :: ns)
    | _, _ => none

/-- A written command from its mnemonic and its operands, in the order of the fields (R59). -/
def readCommand (mnemonic : List Char) (operands : List (List Char)) : Except AsmError Written :=
  let numbers (k : Nat) (make : List Nat → Option Written) : Except AsmError Written :=
    if operands.length ≠ k then .error .operandCount
    else
      match readAll readNumber operands with
      | none => .error .badNumber
      | some ns =>
        match make ns with
        | some c => .ok c
        | none => .error .operandCount
  if mnemonic = ['D', 'I', 'M'] then
    numbers 2 fun | [w, h] => some (.dim w h) | _ => none
  else if mnemonic = ['Q', 'P', 'I', 'X'] then
    numbers 4 fun | [r, g, b, a] => some (.qpix r g b a) | _ => none
  else if mnemonic = ['Q', 'R', 'G', 'B'] then
    numbers 3 fun | [r, g, b] => some (.qrgb r g b) | _ => none
  else if mnemonic = ['L', 'D', 'I', 'X'] then
    numbers 1 fun | [v] => some (.ldix v) | _ => none
  else if mnemonic = ['R', 'D', 'I', 'X'] then
    numbers 1 fun | [n] => some (.rdix n) | _ => none
  else if mnemonic = ['P', 'A', 'C', 'K'] then
    numbers 0 fun _ => some .pack
  else if mnemonic = ['U', 'N', 'P', 'K'] then
    numbers 0 fun _ => some .unpk
  else if mnemonic = ['E', 'M', 'I', 'T'] then
    numbers 0 fun _ => some .emit
  else if mnemonic = ['A', 'B', 'O', 'R', 'T'] then
    match operands with
    | [cs] =>
      match readCode cs with
      | some code => .ok (.abort code)
      | none => .error .badNumber
    | _ => .error .operandCount
  else .error .unknownMnemonic

/-- One line: nothing when it holds no command, else the word of its command (R59). -/
def assembleLine (line : List Char) : Except AsmError (Option Cmd) :=
  match trimBlanks (stripComment line) with
  | [] => .ok none
  | text =>
    let mnemonic := (text.takeWhile (fun c => !isBlank c)).map capital
    let rest := trimBlanks (text.dropWhile (fun c => !isBlank c))
    let operands := if rest = [] then [] else (splitCommas rest).map trimBlanks
    match readCommand mnemonic operands with
    | .error e => .error e
    | .ok c =>
      match assemble c with
      | .error e => .error e
      | .ok w => .ok (some w)

end Sys2Proof.Machine
end

