-- ==== Sys2Proof/Safety.lean ====
section
/-! DEFINITION. The terms statements use: what a trap leaves, the invariants of a run (R33) and of the memories, the
admission table (R30), and the two ends of a run (R137). -/

namespace Sys2Proof.Safety

open Sys2Proof.Machine

/-! ## Traps -/

/-- `t` is `s` after `raise c` (R112), as far as the spec says: `ERR` and `PHASE` written, the other registers, `OUT`,
the parameters and the host's future kept. Of `IDX` and `PLN` nothing is said ("must prove nothing about them"). -/
abbrev Trapped (c : Cause) (s t : State) : Prop :=
  t.err = c ∧ t.phase = .halt ∧ t.width = s.width ∧ t.height = s.height ∧ t.cur = s.cur ∧ t.count = s.count ∧
    t.idxout = s.idxout ∧ t.out = s.out ∧ t.params = s.params ∧ t.host = s.host

/-- An outcome is a next state with a property. -/
abbrev NextSatisfies (o : Host.Outcome State Fault Refusal) (P : State → Prop) : Prop := ∃ t, o = .next t ∧ P t

/-! ## Illegal words -/

/-- R57's list of the illegal words, on the number the word is. -/
abbrev IllegalByList (c : Cmd) : Prop :=
  let op := c.toNat / 2 ^ 32
  let arg := c.toNat % 2 ^ 32
  op = 0 ∨ 9 ≤ op ∨ (op = 3 ∧ arg / 2 ^ 8 ≠ 0) ∨ ((op = 5 ∨ op = 6 ∨ op = 7) ∧ arg ≠ 0) ∨
    (op = 8 ∧ arg / 2 ^ 3 ≠ 0) ∨
    (op = 8 ∧ (arg % 2 ^ 3 = 0 ∨ arg % 2 ^ 3 = 3 ∨ arg % 2 ^ 3 = 4 ∨ arg % 2 ^ 3 = 6 ∨ arg % 2 ^ 3 = 7))

/-! ## Admission -/

/-- An entry of the admission table (R30). -/
inductive Admission where
  | yes
  | trap
  | noStep
  deriving DecidableEq, Repr

/-- The admission table (R30), row by row. -/
def admission : Instr → Phase → Admission
  | _, .done | _, .halt => .noStep
  | .dim _ _, .idle => .yes
  | .dim _ _, _ => .trap
  | .qpix _ _ _ _, .fill => .yes
  | .qpix _ _ _ _, _ => .trap
  | .ldix _, .fill => .yes
  | .ldix _, _ => .trap
  | .rdix _, .idle => .trap
  | .rdix _, _ => .yes
  | .pack, .ready => .yes
  | .pack, _ => .trap
  | .unpk, .packed => .yes
  | .unpk, _ => .trap
  | .emit, .packed => .yes
  | .emit, _ => .trap
  | .abortUsage, .idle => .yes
  | .abortUsage, _ => .trap
  | .abortLoad, .idle => .yes
  | .abortLoad, _ => .trap
  | .abortWrite, .packed => .yes
  | .abortWrite, _ => .trap

/-- The transitions of a command that is not a trap (R29). -/
def transition (i : Instr) (s : State) (after : Phase) : Bool :=
  match i with
  | .dim _ _ => s.phase == .idle && after == .fill
  | .qpix _ _ _ _ | .ldix _ =>
    s.phase == .fill &&
      ((after == .fill && s.cur.toNat + 1 < s.npix) || (after == .ready && s.cur.toNat + 1 == s.npix))
  | .rdix _ => (s.phase == .fill || s.phase == .ready || s.phase == .packed) && after == s.phase
  | .pack => s.phase == .ready && after == .packed
  | .unpk => s.phase == .packed && after == .packed
  | .emit => s.phase == .packed && after == .done
  | .abortUsage | .abortLoad | .abortWrite => false

/-! ## What raises what -/

/-- Which command raises which cause, and when (R103). -/
abbrev RaisedBy (c : Cause) (i : Instr) (s : State) : Prop :=
  match c with
  | .none => False
  | .usageError => i = .abortUsage ∧ s.phase = .idle
  | .resourceLoadError => i = .abortLoad ∧ s.phase = .idle
  | .constraintViolation => ∃ w h, i = .dim w h ∧ s.phase = .idle ∧ (w = 0#16 ∨ h = 0#16 ∨ w.toNat % 8 ≠ 0)
  | .allocationFailure =>
    (∃ w h, i = .dim w h ∧ s.phase = .idle ∧ s.params.idxCap < w.toNat * h.toNat) ∨
    (i = .pack ∧ s.phase = .ready ∧ s.params.plnCap < s.ps)
  | .outputWriteError => i = .abortWrite ∧ s.phase = .packed
  | .illegalCommand => admission i s.phase = .trap ∨ ∃ n, i = .rdix n ∧ s.cur.toNat ≤ n.toNat

/-! ## Invariants -/

/-- The phases in which an image has been accepted and no trap taken. -/
abbrev HasImage (p : Phase) : Prop := p = .fill ∨ p = .ready ∨ p = .packed ∨ p = .done

/-- R33 items 1 to 7 (item 1 is the type of `PHASE`; item 8 speaks of two states). -/
abbrev RunInv (s : State) : Prop :=
  (s.phase = .idle → s.width = 0 ∧ s.height = 0 ∧ s.cur = 0 ∧ s.count = 0) ∧
  (HasImage s.phase →
    8 ≤ s.width.toNat ∧ s.width.toNat % 8 = 0 ∧ 1 ≤ s.height.toNat ∧ s.npix ≤ s.params.idxCap) ∧
  (s.phase = .fill → s.cur.toNat < s.npix) ∧
  (s.phase = .ready ∨ s.phase = .packed ∨ s.phase = .done → s.cur.toNat = s.npix) ∧
  (s.phase = .packed ∨ s.phase = .done → s.ps ≤ s.params.plnCap) ∧
  (s.phase = .done → s.out.length = s.count.toNat ∧ s.count.toNat = 4 * s.ps) ∧
  (s.phase ≠ .done → s.out = [] ∧ s.count = 0) ∧
  (s.err ≠ .none ↔ s.phase = .halt)

/-- The memories: both in canonical form and below their capacity, and everything a command of this phase can read
holds a value (R22, R23, R47). -/
abbrev MemInv (s : State) : Prop :=
  s.idx.wf ∧ (∀ p : Fin 4, (s.plane p).wf) ∧
  (∀ cell ∈ s.idx, cell.1 < s.params.idxCap) ∧ (∀ p : Fin 4, ∀ cell ∈ s.plane p, cell.1 < s.params.plnCap) ∧
  (HasImage s.phase → ∀ n < s.cur.toNat, (s.idx.read n).isSome) ∧
  (s.phase = .packed ∨ s.phase = .done → ∀ p : Fin 4, ∀ o < s.ps, ((s.plane p).read o).isSome)

/-- What R63 says holds from an accepted `DIM` to the next reset. -/
abbrev ImagePromise (s : State) : Prop :=
  8 ≤ s.width.toNat ∧ s.width.toNat % 8 = 0 ∧ 1 ≤ s.height.toNat ∧ 8 ≤ s.npix ∧ s.npix ≤ s.params.idxCap ∧
    s.npix % 8 = 0 ∧ s.ps = s.npix / 8 ∧ 1 ≤ s.ps ∧ 8 * s.ps = s.npix

/-- Every slot filled in this run holds a value in `0 .. 15` (R34). Nothing is said in `IDLE` and `HALT`, where no slot
of the run is written and the contents of `IDX` are unspecified (R112, R126, U3). -/
abbrev NibbleSlots (s : State) : Prop :=
  HasImage s.phase → ∀ n < s.cur.toNat, ∀ v ∈ s.idx.read n, v.toNat < 16

/-- `OUT` holds the used bytes of the four planes: byte `(p, o)` at `p*PS + o`, and no other byte (R39, R92). -/
abbrev OutIsPlanes (s : State) : Prop :=
  s.out.length = 4 * s.ps ∧
    ∀ p : Fin 4, ∀ o < s.ps, ∃ b ∈ (s.plane p).read o, s.out[outPosition s.ps p.val o]? = some b

/-- In `DONE`, `OUT` holds what R92 says. -/
abbrev OutputInv (s : State) : Prop := s.phase = .done → OutIsPlanes s

/-! ## The end of a run -/

/-- Success (R137). -/
abbrev Succeeded (s : State) : Prop :=
  s.phase = .done ∧ s.err = .none ∧ exitPort s = 0 ∧ OutIsPlanes s ∧ s.count.toNat = 4 * s.ps

/-- Failure (R137). -/
abbrev Failed (s : State) : Prop := s.phase = .halt ∧ s.err ≠ .none ∧ exitPort s ≠ 0 ∧ s.out = []

end Sys2Proof.Safety
end

