-- ==== Sys2Proof/Certificates/Slice0/Obligations.lean ====
section
/-! DEFINITION. The statements for the provers. Every statement holds for all values of the OPEN parameters, which
stand in `State.params` (log entry 1); none rests on the default palette. Memory is spoken of through `Mem.read`. Where
a result is written as a record update of `s`, every field that the update does not name is unchanged. -/

open Sys2Proof Sys2Proof.Machine Sys2Proof.Safety

/-! ## Encoding -/

/-- Decoding the word of a command gives the command back, for every operand value (R54, R56, R59). -/
def Obligations.EncodedCommandDecodesToItself : Prop := ∀ i : Instr, decode (encode i) = .ok i

/-- A word that decodes is the word of the command it decodes to: each word has one meaning (R56, R58). -/
def Obligations.DecodedWordEncodesToItself : Prop :=
  ∀ (c : Cmd) (i : Instr), decode c = .ok i → encode i = c

/-- A word belongs to a row of the opcode map exactly when it decodes to a command of that row (R56); so the rows are
disjoint, and a word of no row is illegal. -/
def Obligations.OpcodeMapDecidesTheCommand : Prop :=
  ∀ c : Cmd, ∀ row ∈ opcodeRows, row.covers c = true ↔ ∃ i, decode c = .ok i ∧ i.row = row

/-- R57: the illegal words are exactly those of its list, and one presented in a live phase raises
`IllegalCommand`. -/
def Obligations.IllegalWordsRaiseIllegalCommand : Prop :=
  (∀ c : Cmd, (∃ e, decode c = .error e) ↔ IllegalByList c) ∧
  ∀ (s : State) (w : Cmd) (rest : List HostAction), s.host = .command w :: rest → s.phase.live = true →
    IllegalByList w → NextSatisfies (step s) (Trapped .illegalCommand (s.setHost rest))

/-- Words written out in the spec decode to the commands they stand for (R59; 95 V11). -/
def Obligations.SpecWordsDecode : Prop :=
  decode 0x0100080001 = .ok (.dim 8 1) ∧ decode 0x0212345678 = .ok (.qpix 0x12 0x34 0x56 0x78) ∧
  decode 0x030000001F = .ok (.ldix 0x1F) ∧ decode 0x0400000007 = .ok (.rdix 7) ∧
  decode 0x0500000000 = .ok .pack ∧ decode 0x0600000000 = .ok .unpk ∧ decode 0x0700000000 = .ok .emit ∧
  decode 0x0800000001 = .ok .abortUsage ∧ decode 0x0800000002 = .ok .abortLoad ∧
  decode 0x0800000005 = .ok .abortWrite ∧ decode 0x0000000000 = .error .noSuchOpcode

/-- When the word the host presents decodes to a command, the step is that command's execution, on the state whose
host has presented it (R19, R58). Nothing else is added: there is no program counter (R27). -/
def Obligations.StepRunsTheDecodedCommand : Prop :=
  ∀ (s : State) (w : Cmd) (rest : List HostAction) (i : Instr), s.host = .command w :: rest →
    decode w = .ok i → step s = exec i (s.setHost rest)

/-- With no action of the host the core waits, in every phase (R124). -/
def Obligations.StepWaitsForTheHost : Prop := ∀ s : State, s.host = [] → step s = .next s

/-- An operand that does not fit its field is an assembly error, not a truncation: the operands that assemble, as
numbers; what is written is what the word decodes to; every command can be written; `QRGB` is `QPIX` with alpha 0xFF
(R59). -/
def Obligations.AssemblyNeverTruncates : Prop :=
  (∀ w h, (∃ c, assemble (.dim w h) = .ok c) ↔ w ≤ 65535 ∧ h ≤ 65535) ∧
  (∀ r g b a, (∃ c, assemble (.qpix r g b a) = .ok c) ↔ r ≤ 255 ∧ g ≤ 255 ∧ b ≤ 255 ∧ a ≤ 255) ∧
  (∀ v, (∃ c, assemble (.ldix v) = .ok c) ↔ v ≤ 255) ∧
  (∀ n, (∃ c, assemble (.rdix n) = .ok c) ↔ n ≤ 4294967295) ∧
  (∀ code, (∃ c, assemble (.abort code) = .ok c) ↔ code = 1 ∨ code = 2 ∨ code = 5) ∧
  (∀ (c : Written) (w : Cmd), (∀ r g b, c ≠ .qrgb r g b) → assemble c = .ok w →
    ∃ i, decode w = .ok i ∧ i.written = c) ∧
  (∀ i : Instr, assemble i.written = .ok (encode i)) ∧
  (∀ r g b : Nat, assemble (.qrgb r g b) = assemble (.qpix r g b 0xFF))

/-! ## Reset and the final phases -/

/-- R32: the reset values; no slot and no byte of the unspecified memories holds a value ("a model treats them as
holding no value"); reset leaves `PAL`; the first command accepted after reset is `DIM`, `ABORT 1` or `ABORT 2`. -/
def Obligations.ResetValues : Prop :=
  State.reset.width = 0 ∧ State.reset.height = 0 ∧ State.reset.cur = 0 ∧ State.reset.phase = .idle ∧
  State.reset.err = .none ∧ State.reset.count = 0 ∧ State.reset.idxout = 0 ∧ State.reset.out = [] ∧
  exitPort State.reset = 0 ∧ State.reset.npix = 0 ∧ State.reset.ps = 0 ∧
  (∀ n, State.reset.idx.read n = none) ∧ (∀ p o, (State.reset.plane p).read o = none) ∧
  (∀ s : State, (resetCore s).params.pal = s.params.pal) ∧
  ∀ i : Instr, NextSatisfies (exec i State.reset) fun t => t.err = .illegalCommand ↔
    ¬ ((∃ w h, i = .dim w h) ∨ i = .abortUsage ∨ i = .abortLoad)

/-- R126: asserting `rst`, in any phase, puts every register at its reset value, empties `OUT` and leaves `PAL`; and
nothing but `rst` leads out of `DONE` or `HALT`. -/
def Obligations.ResetInputStartsANewRun : Prop :=
  (∀ (s : State) (rest : List HostAction), s.host = .reset :: rest → NextSatisfies (step s) fun t =>
    t.width = 0 ∧ t.height = 0 ∧ t.cur = 0 ∧ t.phase = .idle ∧ t.err = .none ∧ t.count = 0 ∧ t.idxout = 0 ∧
    t.out = [] ∧ t.params.pal = s.params.pal) ∧
  ∀ s t : State, s.phase = .done ∨ s.phase = .halt → step s = .next t → t.phase ≠ s.phase →
    ∃ rest, s.host = .reset :: rest

/-- R31: in `DONE` and `HALT` the port is not ready, a presented word has no step whatever it is, and no state changes
until reset. -/
def Obligations.FinalPhasesHaveNoStep : Prop :=
  ∀ s : State, s.phase = .done ∨ s.phase = .halt →
    cmdReady s = false ∧
    (∀ w rest, s.host = .command w :: rest → ∀ t, step s ≠ .next t) ∧
    ∀ t, step s = .next t → t = s ∨ ∃ rest, s.host = .reset :: rest

/-! ## DIM -/

/-- `DIM` with valid dimensions in `IDLE` opens the IndexBuffer; nothing else changes (R60). -/
def Obligations.DimAcceptsAValidImage : Prop :=
  ∀ (s : State) (w h : Dim), s.phase = .idle → w ≠ 0#16 → h ≠ 0#16 → w.toNat % 8 = 0 →
    w.toNat * h.toNat ≤ s.params.idxCap →
    exec (.dim w h) s = .next { s with width := w, height := h, cur := 0, phase := .fill }

/-- `DIM` in `IDLE` with bad dimensions traps: `ConstraintViolation` first, `AllocationFailure` only for dimensions
that pass the others (R60, R62, R111). -/
def Obligations.DimRaisesInOrder : Prop :=
  ∀ (s : State) (w h : Dim), s.phase = .idle →
    (w = 0#16 ∨ h = 0#16 ∨ w.toNat % 8 ≠ 0 →
      NextSatisfies (exec (.dim w h) s) (Trapped .constraintViolation s)) ∧
    (w ≠ 0#16 → h ≠ 0#16 → w.toNat % 8 = 0 → s.params.idxCap < w.toNat * h.toNat →
      NextSatisfies (exec (.dim w h) s) (Trapped .allocationFailure s))

/-- R63: an accepted `DIM` establishes the promise, and every step but a reset keeps it and the dimensions. -/
def Obligations.DimPromiseHoldsUntilReset : Prop :=
  (∀ (s t : State) (w h : Dim), exec (.dim w h) s = .next t → t.phase ≠ .halt → ImagePromise t) ∧
  ∀ s t : State, s.phase ≠ .idle → ImagePromise s → step s = .next t →
    (∃ rest, s.host = .reset :: rest) ∨
    (t.phase ≠ .idle ∧ t.width = s.width ∧ t.height = s.height ∧ ImagePromise t)

/-! ## The quantizer and QPIX -/

/-- R64: `Quant` is the entry at minimum distance, the lowest index among several, and nothing else is. -/
def Obligations.QuantIsTheLowestNearestEntry : Prop :=
  ∀ (pal : Palette) (px : Pixel) (i : Fin 16), i = quant pal px ↔
    (∀ j, unitDistance pal px i ≤ unitDistance pal px j) ∧
    ∀ j, j < i → unitDistance pal px i < unitDistance pal px j

/-- The comparator tree with its multiplexer computes `Quant`, and its root is the minimum of the sixteen 22-bit keys
(R71, R72). -/
def Obligations.ComparatorTreeComputesQuant : Prop :=
  ∀ (pal : Palette) (px : Pixel), quantTree pal px = quant pal px ∧
    ∀ j, treeKey pal px (quantTree pal px) ≤ treeKey pal px j ∧ treeKey pal px j < 2 ^ 22

/-- R68: the distance is the exact sum of the three squared signed differences; each difference is in `-255 .. 255`,
each square in `0 .. 65025`, the sum in `0 .. 195075`, below `2^18`. -/
def Obligations.DistanceIsExact : Prop :=
  (∀ (pal : Palette) (px : Pixel) (j : Fin 16), (unitDistance pal px j : Int) =
      ((px.r.toNat : Int) - (pal.entry j).r.toNat) ^ 2 + ((px.g.toNat : Int) - (pal.entry j).g.toNat) ^ 2 +
      ((px.b.toNat : Int) - (pal.entry j).b.toNat) ^ 2) ∧
  (∀ x y : Byte, -255 ≤ (x.toNat : Int) - y.toNat ∧ (x.toNat : Int) - y.toNat ≤ 255 ∧
    0 ≤ ((x.toNat : Int) - y.toNat) ^ 2 ∧ ((x.toNat : Int) - y.toNat) ^ 2 ≤ 65025) ∧
  ∀ (pal : Palette) (px : Pixel) (j : Fin 16), unitDistance pal px j ≤ 195075 ∧ unitDistance pal px j < 2 ^ 18

/-- A palette colour quantizes to its own index (R75 (2), given R65 (c)). -/
def Obligations.PaletteColoursQuantizeToThemselves : Prop :=
  ∀ (pal : Palette) (j : Fin 16), pal.Distinct →
    quant pal { r := (pal.entry j).r, g := (pal.entry j).g, b := (pal.entry j).b } = j

/-- R74: alpha has no effect on any state. -/
def Obligations.AlphaHasNoEffect : Prop :=
  ∀ (r g b a a' : Byte) (s : State), exec (.qpix r g b a) s = exec (.qpix r g b a') s

/-- `QPIX` in `FILL`: the slot at the old `CUR` and `IDXOUT` take the index, `CUR` advances by 1, `PHASE` becomes
`READY` on the last pixel; every other slot and everything else unchanged (R73, R80). The premises on `CUR` and the
capacity hold on every run (R33 items 3 and 4; `EveryStepKeepsRunInvariant`). -/
def Obligations.QpixFillsTheNextSlot : Prop :=
  ∀ (s : State) (r g b a : Byte), s.phase = .fill → s.cur.toNat < s.npix → s.npix ≤ s.params.idxCap →
    NextSatisfies (exec (.qpix r g b a) s) fun t =>
      t = { s with
        idx := t.idx
        idxout := BitVec.ofNat 8 (quant s.params.pal { r := r, g := g, b := b }).val
        cur := BitVec.ofNat 32 (s.cur.toNat + 1)
        phase := if s.cur.toNat + 1 = s.npix then .ready else .fill } ∧
      ∀ n, t.idx.read n =
        if n = s.cur.toNat then some (BitVec.ofNat 8 (quant s.params.pal { r := r, g := g, b := b }).val)
        else s.idx.read n

/-! ## LDIX and RDIX -/

/-- `LDIX` in `FILL`: the slot at the old `CUR` takes all 8 bits of the value, `CUR` and `PHASE` advance as for
`QPIX`; `IDXOUT`, every other slot and everything else unchanged (R78, R80). Premises as there. -/
def Obligations.LdixFillsTheNextSlot : Prop :=
  ∀ (s : State) (v : Byte), s.phase = .fill → s.cur.toNat < s.npix → s.npix ≤ s.params.idxCap →
    NextSatisfies (exec (.ldix v) s) fun t =>
      t = { s with
        idx := t.idx
        cur := BitVec.ofNat 32 (s.cur.toNat + 1)
        phase := if s.cur.toNat + 1 = s.npix then .ready else .fill } ∧
      ∀ n, t.idx.read n = if n = s.cur.toNat then some v else s.idx.read n

/-- `RDIX` of a written slot: `IDXOUT` takes all 8 bits; nothing else changes (R79, R45). -/
def Obligations.RdixShowsAWrittenSlot : Prop :=
  ∀ (s : State) (n : Word) (v : Byte), s.phase = .fill ∨ s.phase = .ready ∨ s.phase = .packed →
    n.toNat < s.cur.toNat → n.toNat < s.params.idxCap → s.idx.read n.toNat = some v →
    exec (.rdix n) s = .next { s with idxout := v }

/-- `RDIX` of a slot not written in this run raises `IllegalCommand` (R79). -/
def Obligations.RdixRaisesOnAnUnwrittenSlot : Prop :=
  ∀ (s : State) (n : Word), s.phase = .fill ∨ s.phase = .ready ∨ s.phase = .packed →
    s.cur.toNat ≤ n.toNat → NextSatisfies (exec (.rdix n) s) (Trapped .illegalCommand s)

/-! ## PACK and UNPK -/

/-- `PACK` in `READY`: byte `o` of plane `p` becomes the gather and bit permutation of the slots `8o .. 8o+7`, for every
`o < PS`; the bytes from `PS` on, `IDX` and everything else but `PHASE` unchanged (R84, R85, R86). -/
def Obligations.PackBuildsThePlanes : Prop :=
  ∀ (s : State) (slot : Nat → Byte), s.phase = .ready → s.width.toNat % 8 = 0 → s.ps ≤ s.params.plnCap →
    s.npix ≤ s.params.idxCap → (∀ n < s.npix, s.idx.read n = some (slot n)) →
    NextSatisfies (exec .pack s) fun t =>
      t = { s with pln := t.pln, phase := .packed } ∧
      (∀ p o, o < s.ps → (t.plane p).read o = some (packGroup (fun j => slot (8 * o + j.val)) p)) ∧
      ∀ p o, s.ps ≤ o → (t.plane p).read o = (s.plane p).read o

/-- After `PACK`, the pixel at linear position `n`, column `x = n mod WIDTH`, owns in plane `p` bit `7 - (x mod 8)` of
byte `n / 8`, and that bit is bit `p` of its index (R38). -/
def Obligations.PackedBitsFollowThePlaneLaw : Prop :=
  ∀ (s : State) (slot : Nat → Byte), s.phase = .ready → s.width.toNat % 8 = 0 → s.ps ≤ s.params.plnCap →
    s.npix ≤ s.params.idxCap → (∀ n < s.npix, s.idx.read n = some (slot n)) →
    NextSatisfies (exec .pack s) fun t => ∀ n < s.npix, ∀ p : Fin 4, ∃ b, (t.plane p).read (n / 8) = some b ∧
      b.getLsbD (7 - n % s.width.toNat % 8) = (slot n).getLsbD p.val

/-- `PACK` when a plane does not fit its memory raises `AllocationFailure` (R86, R107). -/
def Obligations.PackRaisesAllocationFailure : Prop :=
  ∀ s : State, s.phase = .ready → s.params.plnCap < s.ps →
    NextSatisfies (exec .pack s) (Trapped .allocationFailure s)

/-- R41: with `WIDTH mod 8 = 0` every row begins on a byte boundary, the column and the stream position give the same
bit, the eight pixels of a byte lie in one row, and each (byte, bit) pair is owned by exactly one pixel. -/
def Obligations.AlignedWidthOwnsEachBitOnce : Prop :=
  ∀ w : Nat, 0 < w → w % 8 = 0 →
    (∀ y, position w 0 y % 8 = 0) ∧
    (∀ n, n % 8 = column w n % 8 ∧ bitPosition w n = 7 - n % 8) ∧
    (∀ o, ∀ j < 8, row w (8 * o + j) = 8 * o / w) ∧
    ∀ o, ∀ k < 8, ∃ n, (byteOffset n = o ∧ bitPosition w n = k) ∧
      ∀ m, byteOffset m = o → bitPosition w m = k → m = n

/-- `UNPK` in `PACKED`: every used slot becomes the index its four plane bits make; every other slot, `PLN`, `PHASE`,
`CUR` and everything else unchanged (R88, R89). -/
def Obligations.UnpkRebuildsTheIndices : Prop :=
  ∀ (s : State) (byte : Fin 4 → Nat → Byte), s.phase = .packed → s.width.toNat % 8 = 0 →
    s.ps ≤ s.params.plnCap → s.npix ≤ s.params.idxCap →
    (∀ p, ∀ o < s.ps, (s.plane p).read o = some (byte p o)) →
    NextSatisfies (exec .unpk s) fun t =>
      t = { s with idx := t.idx } ∧
      (∀ n < s.npix, t.idx.read n =
        some (unpackBits (fun p => byte p (n / 8)) (7 - n % s.width.toNat % 8))) ∧
      ∀ n, s.npix ≤ n → t.idx.read n = s.idx.read n

/-- The index of a pixel is in `0 .. 15`, and its bit `p` is the pixel's bit of plane `p` (R88). -/
def Obligations.UnpackTakesOneBitPerPlane : Prop :=
  ∀ (bytes : Fin 4 → Byte) (k : Nat), (unpackBits bytes k).toNat < 16 ∧
    ∀ p : Fin 4, (unpackBits bytes k).getLsbD p.val = (bytes p).getLsbD k

/-- R90: pack then unpack gives the low 4 bits of every slot; unpack then pack gives the planes; the packer is
insensitive to the high bits. -/
def Obligations.PackerRoundTrips : Prop :=
  (∀ (s : State) (slot : Nat → Byte), s.phase = .ready → s.width.toNat % 8 = 0 → s.ps ≤ s.params.plnCap →
    s.npix ≤ s.params.idxCap → (∀ n < s.npix, s.idx.read n = some (slot n)) →
    ∃ t u, exec .pack s = .next t ∧ exec .unpk t = .next u ∧
      ∀ n < s.npix, u.idx.read n = some (slot n &&& 0x0F#8)) ∧
  (∀ (bytes : Fin 4 → Byte) (p : Fin 4), packGroup (fun j => unpackBits bytes (7 - j.val)) p = bytes p) ∧
  ∀ (s t u : State) (m : Mem), exec .pack s = .next t → exec .pack (s.setIdx m) = .next u →
    t.phase = .packed →
    (∀ n < s.npix, ∃ a b, s.idx.read n = some a ∧ m.read n = some b ∧ a &&& 0x0F#8 = b &&& 0x0F#8) →
    ∀ p o, (t.plane p).read o = (u.plane p).read o

/-- A second `UNPK` changes no slot (R89). -/
def Obligations.SecondUnpkChangesNothing : Prop :=
  ∀ s t : State, s.phase = .packed → exec .unpk s = .next t →
    NextSatisfies (exec .unpk t) fun u => u = { t with idx := u.idx } ∧ ∀ n, u.idx.read n = t.idx.read n

/-! ## EMIT -/

/-- `EMIT` in `PACKED`: `OUT` grows by `4 * PS` bytes, byte `(p, o)` of the planes at position `p*PS + o` of them;
`COUNT` is `4 * PS`, `PHASE` is `DONE`; the planes, `IDX` and everything else unchanged (R39, R92, R93). -/
def Obligations.EmitWritesThePlanesInOrder : Prop :=
  ∀ (s : State) (byte : Fin 4 → Nat → Byte), s.phase = .packed → s.ps ≤ s.params.plnCap →
    (∀ p, ∀ o < s.ps, (s.plane p).read o = some (byte p o)) →
    NextSatisfies (exec .emit s) fun t =>
      t = { s with out := t.out, count := BitVec.ofNat 32 (4 * s.ps), phase := .done } ∧
      ∃ added, t.out = s.out ++ added ∧ added.length = 4 * s.ps ∧
        ∀ (p : Fin 4) (o : Nat), o < s.ps → added[p.val * s.ps + o]? = some (byte p o)

/-- R94: in `DONE` the output is `4 * WIDTH * HEIGHT / 8` bytes long, and `COUNT` says so. -/
def Obligations.SizeLaw : Prop :=
  ∀ s : State, RunInv s → s.phase = .done →
    s.out.length = s.count.toNat ∧ s.count.toNat = 4 * s.ps ∧
    4 * s.ps = 4 * (s.width.toNat * s.height.toNat / 8) ∧
    4 * s.ps = 4 * s.width.toNat * s.height.toNat / 8 ∧ 4 * s.ps = s.width.toNat * s.height.toNat / 2

/-- The output is complete or empty; only `EMIT` writes it, and a trap leaves it empty (R24, R96). -/
def Obligations.OutputIsCompleteOrEmpty : Prop :=
  (∀ s : State, RunInv s → s.out = [] ∨ (s.phase = .done ∧ s.out.length = 4 * s.ps)) ∧
  (∀ (i : Instr) (s t : State), exec i s = .next t → t.out ≠ s.out →
    i = .emit ∧ s.phase = .packed ∧ t.phase = .done) ∧
  ∀ (i : Instr) (s t : State), RunInv s → exec i s = .next t → t.phase = .halt → t.out = []

/-! ## ABORT, traps and admission -/

/-- Each `ABORT` in its phase ends the run with its own cause; everything else is kept (R100, R112). -/
def Obligations.AbortRaisesItsCause : Prop :=
  ∀ s : State,
    (s.phase = .idle → NextSatisfies (exec .abortUsage s) (Trapped .usageError s)) ∧
    (s.phase = .idle → NextSatisfies (exec .abortLoad s) (Trapped .resourceLoadError s)) ∧
    (s.phase = .packed → NextSatisfies (exec .abortWrite s) (Trapped .outputWriteError s))

/-- R30: the admission table, row by row: no step in the final phases; `IllegalCommand` where the table says trap; and
where it says yes, no `IllegalCommand` but that of `RDIX` for an unwritten slot, and for an `ABORT` the end of the run
with its own cause. The last row is the illegal word. -/
def Obligations.AdmissionTable : Prop :=
  (∀ (i : Instr) (s : State),
    (admission i s.phase = .noStep → ∀ t, exec i s ≠ .next t) ∧
    (admission i s.phase = .trap → NextSatisfies (exec i s) (Trapped .illegalCommand s)) ∧
    (admission i s.phase = .yes → ∀ t, exec i s = .next t → t.phase = .halt → t.err = .illegalCommand →
      ∃ n, i = .rdix n ∧ s.cur.toNat ≤ n.toNat) ∧
    (admission i s.phase = .yes →
      (i = .abortUsage → NextSatisfies (exec i s) (Trapped .usageError s)) ∧
      (i = .abortLoad → NextSatisfies (exec i s) (Trapped .resourceLoadError s)) ∧
      (i = .abortWrite → NextSatisfies (exec i s) (Trapped .outputWriteError s)))) ∧
  ∀ (s : State) (w : Cmd) (rest : List HostAction) (e : IllegalWord), s.host = .command w :: rest →
    decode w = .error e →
    (s.phase.live = true → NextSatisfies (step s) (Trapped .illegalCommand (s.setHost rest))) ∧
    (s.phase.live = false → ∀ t, step s ≠ .next t)

/-- R112: a command that ends in `HALT` was performed in a live phase, and has done nothing but the two assignments of
trap entry; `OUT` is empty at every trap of a run. -/
def Obligations.TrapsArePrecise : Prop :=
  ∀ (i : Instr) (s t : State), exec i s = .next t → t.phase = .halt →
    s.phase.live = true ∧ t.err ≠ .none ∧ Trapped t.err s t ∧ (RunInv s → t.out = [])

/-- R103: the cause codes, and each cause only from its commands, only when its condition holds. -/
def Obligations.CausesComeFromTheirCommands : Prop :=
  [Cause.none, .usageError, .resourceLoadError, .constraintViolation, .allocationFailure, .outputWriteError,
    .illegalCommand].map Cause.code = [0, 1, 2, 3, 4, 5, 6] ∧
  ∀ (i : Instr) (s t : State), exec i s = .next t → t.phase = .halt → RaisedBy t.err i s

/-- R110: `QPIX`, `LDIX`, `UNPK` and `EMIT` never raise in their phase. -/
def Obligations.WhatNeverRaises : Prop :=
  ∀ s t : State,
    (∀ r g b a, s.phase = .fill → exec (.qpix r g b a) s = .next t → t.phase ≠ .halt) ∧
    (∀ v, s.phase = .fill → exec (.ldix v) s = .next t → t.phase ≠ .halt) ∧
    (s.phase = .packed → exec .unpk s = .next t → t.phase ≠ .halt) ∧
    (s.phase = .packed → exec .emit s = .next t → t.phase ≠ .halt)

/-- On a run no memory access faults: a step stops only for a command presented in `DONE` or `HALT` (R31, R47,
R110). The faults are the model's (log entries 4, 9, 11, 18). -/
def Obligations.NoMemoryAccessFaults : Prop :=
  ∀ (s : State) (f : Fault), RunInv s → MemInv s → step s = .fault f →
    f = .noStep ∧ (s.phase = .done ∨ s.phase = .halt) ∧ ∃ w rest, s.host = .command w :: rest

/-! ## Invariants and rules of the whole machine -/

/-- The invariants hold after reset, for every value of the parameters (R32, R33). -/
def Obligations.InvariantsHoldAtReset : Prop :=
  ∀ p : Params, RunInv { State.reset with params := p } ∧ MemInv { State.reset with params := p }

/-- R33: its invariants hold after reset, whatever the parameters and the host are, and every step keeps them: items 2
to 7 are `RunInv`, item 1 is the code of `PHASE`, and a step to or in `HALT` keeps the registers of item 8. -/
def Obligations.EveryStepKeepsRunInvariant : Prop :=
  (∀ (p : Params) (acts : List HostAction), RunInv { State.reset with params := p, host := acts }) ∧
  ∀ s t : State, RunInv s → step s = .next t →
    RunInv t ∧ t.phase.code ∈ ([0, 1, 2, 3, 4, 7] : List (BitVec 3)) ∧
    (t.phase = .halt → t.width = s.width ∧ t.height = s.height ∧ t.cur = s.cur ∧ t.count = s.count ∧
      t.idxout = s.idxout)

/-- Every step keeps the memories in canonical form and below their capacity, and everything the next command can
read holds a value (R22, R23, R47). -/
def Obligations.EveryStepKeepsMemoryInvariant : Prop :=
  ∀ s t : State, RunInv s → MemInv s → step s = .next t → MemInv t

/-- R34: every slot filled in the run stays in `0 .. 15` unless an `LDIX` of a larger value is presented. After a trap
and after a reset nothing is said of `IDX` (R112, R126). -/
def Obligations.NibbleSlotsAreKept : Prop :=
  ∀ s t : State, NibbleSlots s → step s = .next t →
    (∀ w rest v, s.host = .command w :: rest → decode w = .ok (.ldix v) → v.toNat < 16) → NibbleSlots t

/-- R29: the values of `PHASE`, and every transition: those of its list, and no others. -/
def Obligations.PhaseMovesOnlyAsListed : Prop :=
  [Phase.idle, .fill, .ready, .packed, .done, .halt].map Phase.code = [0, 1, 2, 3, 4, 7] ∧
  (∀ (s t : State) (rest : List HostAction), s.host = .reset :: rest → step s = .next t → t.phase = .idle) ∧
  (∀ s t : State, s.host = [] → step s = .next t → t.phase = s.phase) ∧
  (∀ (s t : State) (w : Cmd) (rest : List HostAction) (e : IllegalWord), s.host = .command w :: rest →
    decode w = .error e → step s = .next t → t.phase = .halt ∧ s.phase.live = true) ∧
  ∀ (i : Instr) (s t : State), RunInv s → exec i s = .next t →
    (t.phase = .halt ∧ s.phase.live = true) ∨ transition i s t.phase = true

/-- Each register and memory is written by the commands R11 lists for it and by no other. Of the memories after a trap
nothing is said (R112). -/
def Obligations.OnlyListedCommandsWrite : Prop :=
  ∀ (i : Instr) (s t : State), exec i s = .next t →
    (t.width ≠ s.width ∨ t.height ≠ s.height → ∃ w h, i = .dim w h) ∧
    (t.cur ≠ s.cur → (∃ w h, i = .dim w h) ∨ (∃ r g b a, i = .qpix r g b a) ∨ ∃ v, i = .ldix v) ∧
    (t.err ≠ s.err → t.phase = .halt) ∧
    (t.count ≠ s.count → i = .emit) ∧
    (t.idxout ≠ s.idxout → (∃ r g b a, i = .qpix r g b a) ∨ ∃ n, i = .rdix n) ∧
    (t.phase ≠ .halt → (∃ n, t.idx.read n ≠ s.idx.read n) →
      (∃ r g b a, i = .qpix r g b a) ∨ (∃ v, i = .ldix v) ∨ i = .unpk) ∧
    (t.phase ≠ .halt → (∃ p o, (t.plane p).read o ≠ (s.plane p).read o) → i = .pack) ∧
    (t.out ≠ s.out → i = .emit) ∧ t.params = s.params ∧ t.host = s.host

/-- No step changes the palette or any other parameter (R5, R21). -/
def Obligations.NoStepChangesThePalette : Prop :=
  ∀ s t : State, step s = .next t → t.params = s.params

/-- R17: the exit status, by phase and cause. -/
def Obligations.ExitPortIsTheExitStatus : Prop :=
  ∀ s : State,
    (s.phase ≠ .halt → exitPort s = 0) ∧
    (s.phase = .halt → s.err = .usageError ∨ s.err = .constraintViolation ∨ s.err = .illegalCommand →
      exitPort s = 1) ∧
    (s.phase = .halt → s.err = .resourceLoadError ∨ s.err = .allocationFailure ∨ s.err = .outputWriteError →
      exitPort s = s.params.exitNz)

/-- A run that has ended has ended in exactly one of two ways (R137), when `EXIT_NZ` is not 0 (R9). The premises hold on
every run (`EveryStepKeepsRunInvariant`, `OutputHoldsThePlanesInDone`). -/
def Obligations.RunsEndInSuccessOrFailure : Prop :=
  ∀ s : State, RunInv s → OutputInv s → s.params.exitNz ≠ 0 →
    (s.phase = .done → Succeeded s ∧ ¬ Failed s) ∧ (s.phase = .halt → Failed s ∧ ¬ Succeeded s) ∧
    (s.phase.live = true → ¬ Succeeded s ∧ ¬ Failed s)

/-- `cmd_ready` is asserted exactly in the live phases (R53), and then every legal word has a step or a trap: a run
never sticks on a presented command in a live phase (R47). -/
def Obligations.LivePhasesAcceptEveryWord : Prop :=
  ∀ (s : State) (w : Cmd) (rest : List HostAction), RunInv s → MemInv s → s.host = .command w :: rest →
    (cmdReady s = true ↔ s.phase = .idle ∨ s.phase = .fill ∨ s.phase = .ready ∨ s.phase = .packed) ∧
    (cmdReady s = true → ∃ t, step s = .next t)

/-- In `DONE`, on a run, `OUT` holds the used bytes of the four planes in order (R39, R92): so it is after reset, and
every step keeps it. -/
def Obligations.OutputHoldsThePlanesInDone : Prop :=
  (∀ (p : Params) (acts : List HostAction), OutputInv { State.reset with params := p, host := acts }) ∧
  ∀ s t : State, RunInv s → OutputInv s → step s = .next t → OutputInv t
end

