-- ==== Sys2Proof/Laws/Decode.lean ====
section
/-! SUPPORT. The fields of a word as numbers, the words of the commands as numbers, and the masks of the opcode map. -/

namespace Sys2Proof

/-! ## Fields as numbers -/

theorem opField_toNat (c : Cmd) : (opField c).toNat = c.toNat / 2 ^ 32 := by
  have := c.isLt
  simp [opField, Nat.shiftRight_eq_div_pow]; omega

theorem argField_toNat (c : Cmd) : (argField c).toNat = c.toNat % 2 ^ 32 := by simp [argField]

theorem wField_toNat (c : Cmd) : (wField c).toNat = c.toNat / 2 ^ 16 % 2 ^ 16 := by
  simp [wField, Nat.shiftRight_eq_div_pow]

theorem hField_toNat (c : Cmd) : (hField c).toNat = c.toNat % 2 ^ 16 := by simp [hField]

theorem rField_toNat (c : Cmd) : (rField c).toNat = c.toNat / 2 ^ 24 % 2 ^ 8 := by
  simp [rField, Nat.shiftRight_eq_div_pow]

theorem gField_toNat (c : Cmd) : (gField c).toNat = c.toNat / 2 ^ 16 % 2 ^ 8 := by
  simp [gField, Nat.shiftRight_eq_div_pow]

theorem bField_toNat (c : Cmd) : (bField c).toNat = c.toNat / 2 ^ 8 % 2 ^ 8 := by
  simp [bField, Nat.shiftRight_eq_div_pow]

theorem aField_toNat (c : Cmd) : (aField c).toNat = c.toNat % 2 ^ 8 := by simp [aField]

theorem ldixZeros_toNat (c : Cmd) : (ldixZeros c).toNat = c.toNat / 2 ^ 8 % 2 ^ 24 := by
  simp [ldixZeros, Nat.shiftRight_eq_div_pow]

theorem abortZeros_toNat (c : Cmd) : (abortZeros c).toNat = c.toNat / 2 ^ 3 % 2 ^ 29 := by
  simp [abortZeros, Nat.shiftRight_eq_div_pow]

theorem codeField_toNat (c : Cmd) : (codeField c).toNat = c.toNat % 2 ^ 3 := by simp [codeField]

/-! ## Words as numbers -/

theorem encode_dim_toNat (w h : Dim) : (encode (.dim w h)).toNat = 1 * 2 ^ 32 + w.toNat * 2 ^ 16 + h.toNat := by
  have := w.isLt
  have := h.isLt
  simp only [encode, BitVec.toNat_append]
  repeat rw [← Nat.shiftLeft_add_eq_or_of_lt (by omega)]
  simp [Nat.shiftLeft_eq]; omega

theorem encode_qpix_toNat (r g b a : Byte) : (encode (.qpix r g b a)).toNat =
    2 * 2 ^ 32 + r.toNat * 2 ^ 24 + g.toNat * 2 ^ 16 + b.toNat * 2 ^ 8 + a.toNat := by
  have := r.isLt
  have := g.isLt
  have := b.isLt
  have := a.isLt
  simp only [encode, BitVec.toNat_append]
  repeat rw [← Nat.shiftLeft_add_eq_or_of_lt (by omega)]
  simp [Nat.shiftLeft_eq]; omega

theorem encode_ldix_toNat (v : Byte) : (encode (.ldix v)).toNat = 3 * 2 ^ 32 + v.toNat := by
  have := v.isLt
  simp only [encode, BitVec.toNat_append]
  repeat rw [← Nat.shiftLeft_add_eq_or_of_lt (by simp [v.isLt])]
  simp [Nat.shiftLeft_eq]

theorem encode_rdix_toNat (n : Word) : (encode (.rdix n)).toNat = 4 * 2 ^ 32 + n.toNat := by
  have := n.isLt
  simp only [encode, BitVec.toNat_append]
  rw [← Nat.shiftLeft_add_eq_or_of_lt (by omega)]
  simp [Nat.shiftLeft_eq]

/-! ## What the decoder can do -/

/-- The words that decode, by command. -/
theorem decode_ok {c : Cmd} {i : Instr} (h : decode c = .ok i) :
    (opField c = 0x01#8 ∧ i = .dim (wField c) (hField c)) ∨
    (opField c = 0x02#8 ∧ i = .qpix (rField c) (gField c) (bField c) (aField c)) ∨
    (opField c = 0x03#8 ∧ ldixZeros c = 0#24 ∧ i = .ldix (aField c)) ∨
    (opField c = 0x04#8 ∧ i = .rdix (argField c)) ∨
    (opField c = 0x05#8 ∧ argField c = 0#32 ∧ i = .pack) ∨
    (opField c = 0x06#8 ∧ argField c = 0#32 ∧ i = .unpk) ∨
    (opField c = 0x07#8 ∧ argField c = 0#32 ∧ i = .emit) ∨
    (opField c = 0x08#8 ∧ abortZeros c = 0#29 ∧ codeField c = 1#3 ∧ i = .abortUsage) ∨
    (opField c = 0x08#8 ∧ abortZeros c = 0#29 ∧ codeField c = 2#3 ∧ i = .abortLoad) ∨
    (opField c = 0x08#8 ∧ abortZeros c = 0#29 ∧ codeField c = 5#3 ∧ i = .abortWrite) := by
  have inj : ∀ {x : Instr}, (Except.ok x : Except IllegalWord Instr) = .ok i → i = x :=
    fun e => (Except.ok.inj e).symm
  unfold decode at h
  split at h
  · next o => exact .inl ⟨o, inj h⟩
  refine .inr ?_
  split at h
  · next o => exact .inl ⟨o, inj h⟩
  refine .inr ?_
  split at h
  · next o =>
    split at h
    · next z => exact .inl ⟨o, z, inj h⟩
    · cases h
  refine .inr ?_
  split at h
  · next o => exact .inl ⟨o, inj h⟩
  refine .inr ?_
  unfold decodeZ at h
  split at h
  · next o =>
    split at h
    · next z => exact .inl ⟨o, z, inj h⟩
    · cases h
  refine .inr ?_
  split at h
  · next o =>
    split at h
    · next z => exact .inl ⟨o, z, inj h⟩
    · cases h
  refine .inr ?_
  split at h
  · next o =>
    split at h
    · next z => exact .inl ⟨o, z, inj h⟩
    · cases h
  refine .inr ?_
  split at h
  · next o =>
    unfold decodeAbort at h
    split at h
    · cases h
    · next z =>
      have z : abortZeros c = 0#29 := not_not.mp z
      split at h
      · next k => exact .inl ⟨o, z, k, inj h⟩
      split at h
      · next k => exact .inr (.inl ⟨o, z, k, inj h⟩)
      split at h
      · next k => exact .inr (.inr ⟨o, z, k, inj h⟩)
      · cases h
  · cases h

/-- The words that do not decode, by reason. -/
theorem decode_error {c : Cmd} {e : IllegalWord} (h : decode c = .error e) :
    (opField c ≠ 0x01#8 ∧ opField c ≠ 0x02#8 ∧ opField c ≠ 0x03#8 ∧ opField c ≠ 0x04#8 ∧ opField c ≠ 0x05#8 ∧
      opField c ≠ 0x06#8 ∧ opField c ≠ 0x07#8 ∧ opField c ≠ 0x08#8) ∨
    (opField c = 0x03#8 ∧ ldixZeros c ≠ 0#24) ∨
    ((opField c = 0x05#8 ∨ opField c = 0x06#8 ∨ opField c = 0x07#8) ∧ argField c ≠ 0#32) ∨
    (opField c = 0x08#8 ∧
      (abortZeros c ≠ 0#29 ∨ (codeField c ≠ 1#3 ∧ codeField c ≠ 2#3 ∧ codeField c ≠ 5#3))) := by
  unfold decode at h
  split at h
  · cases h
  next o1 =>
  split at h
  · cases h
  next o2 =>
  split at h
  · next o =>
    split at h
    · cases h
    · next z => exact .inr (.inl ⟨o, z⟩)
  next o3 =>
  split at h
  · cases h
  next o4 =>
  unfold decodeZ at h
  split at h
  · next o =>
    split at h
    · cases h
    · next z => exact .inr (.inr (.inl ⟨.inl o, z⟩))
  next o5 =>
  split at h
  · next o =>
    split at h
    · cases h
    · next z => exact .inr (.inr (.inl ⟨.inr (.inl o), z⟩))
  next o6 =>
  split at h
  · next o =>
    split at h
    · cases h
    · next z => exact .inr (.inr (.inl ⟨.inr (.inr o), z⟩))
  next o7 =>
  split at h
  · next o =>
    refine .inr (.inr (.inr ⟨o, ?_⟩))
    unfold decodeAbort at h
    split at h
    · next z => exact .inl z
    split at h
    · cases h
    next k1 =>
    split at h
    · cases h
    next k2 =>
    split at h
    · cases h
    next k5 => exact .inr ⟨k1, k2, k5⟩
  next o8 => exact .inl ⟨o1, o2, o3, o4, o5, o6, o7, o8⟩

/-! ## The masks of the opcode map -/

theorem mask_opcode (c : Cmd) : c &&& 0xFF00000000#40 = (opField c).setWidth 40 <<< 32 := by
  ext i hi
  interval_cases i <;> simp [opField]

theorem mask_ldix (c : Cmd) :
    c &&& 0xFFFFFFFF00#40 = (opField c).setWidth 40 <<< 32 ||| (ldixZeros c).setWidth 40 <<< 8 := by
  ext i hi
  interval_cases i <;> simp [opField, ldixZeros]

theorem mask_all (c : Cmd) : c &&& 0xFFFFFFFFFF#40 = c := by
  ext i hi
  interval_cases i <;> simp

end Sys2Proof
end

