-- ==== Sys2Proof/Laws/State.lean ====
section
/-! SUPPORT. One lemma per field per register write: what the write leaves there. -/

namespace Sys2Proof.Machine

variable (s : State)

/-! ## `State.setDims` -/

@[simp] theorem State.setDims_params (w h : Dim) : (s.setDims w h).params = s.params := rfl
@[simp] theorem State.setDims_width (w h : Dim) : (s.setDims w h).width = w := rfl
@[simp] theorem State.setDims_height (w h : Dim) : (s.setDims w h).height = h := rfl
@[simp] theorem State.setDims_cur (w h : Dim) : (s.setDims w h).cur = s.cur := rfl
@[simp] theorem State.setDims_phase (w h : Dim) : (s.setDims w h).phase = s.phase := rfl
@[simp] theorem State.setDims_err (w h : Dim) : (s.setDims w h).err = s.err := rfl
@[simp] theorem State.setDims_count (w h : Dim) : (s.setDims w h).count = s.count := rfl
@[simp] theorem State.setDims_idxout (w h : Dim) : (s.setDims w h).idxout = s.idxout := rfl
@[simp] theorem State.setDims_idx (w h : Dim) : (s.setDims w h).idx = s.idx := rfl
@[simp] theorem State.setDims_pln (w h : Dim) : (s.setDims w h).pln = s.pln := rfl
@[simp] theorem State.setDims_plane (w h : Dim) (p : Fin 4) : (s.setDims w h).plane p = s.plane p := rfl
@[simp] theorem State.setDims_out (w h : Dim) : (s.setDims w h).out = s.out := rfl
@[simp] theorem State.setDims_host (w h : Dim) : (s.setDims w h).host = s.host := rfl
@[simp] theorem State.setDims_npix (w h : Dim) : (s.setDims w h).npix = w.toNat * h.toNat := rfl
@[simp] theorem State.setDims_ps (w h : Dim) : (s.setDims w h).ps = w.toNat * h.toNat / 8 := rfl

/-! ## `State.setCur` -/

@[simp] theorem State.setCur_params (v : Word) : (s.setCur v).params = s.params := rfl
@[simp] theorem State.setCur_width (v : Word) : (s.setCur v).width = s.width := rfl
@[simp] theorem State.setCur_height (v : Word) : (s.setCur v).height = s.height := rfl
@[simp] theorem State.setCur_cur (v : Word) : (s.setCur v).cur = v := rfl
@[simp] theorem State.setCur_phase (v : Word) : (s.setCur v).phase = s.phase := rfl
@[simp] theorem State.setCur_err (v : Word) : (s.setCur v).err = s.err := rfl
@[simp] theorem State.setCur_count (v : Word) : (s.setCur v).count = s.count := rfl
@[simp] theorem State.setCur_idxout (v : Word) : (s.setCur v).idxout = s.idxout := rfl
@[simp] theorem State.setCur_idx (v : Word) : (s.setCur v).idx = s.idx := rfl
@[simp] theorem State.setCur_pln (v : Word) : (s.setCur v).pln = s.pln := rfl
@[simp] theorem State.setCur_plane (v : Word) (p : Fin 4) : (s.setCur v).plane p = s.plane p := rfl
@[simp] theorem State.setCur_out (v : Word) : (s.setCur v).out = s.out := rfl
@[simp] theorem State.setCur_host (v : Word) : (s.setCur v).host = s.host := rfl
@[simp] theorem State.setCur_npix (v : Word) : (s.setCur v).npix = s.npix := rfl
@[simp] theorem State.setCur_ps (v : Word) : (s.setCur v).ps = s.ps := rfl

/-! ## `State.setPhase` -/

@[simp] theorem State.setPhase_params (v : Phase) : (s.setPhase v).params = s.params := rfl
@[simp] theorem State.setPhase_width (v : Phase) : (s.setPhase v).width = s.width := rfl
@[simp] theorem State.setPhase_height (v : Phase) : (s.setPhase v).height = s.height := rfl
@[simp] theorem State.setPhase_cur (v : Phase) : (s.setPhase v).cur = s.cur := rfl
@[simp] theorem State.setPhase_phase (v : Phase) : (s.setPhase v).phase = v := rfl
@[simp] theorem State.setPhase_err (v : Phase) : (s.setPhase v).err = s.err := rfl
@[simp] theorem State.setPhase_count (v : Phase) : (s.setPhase v).count = s.count := rfl
@[simp] theorem State.setPhase_idxout (v : Phase) : (s.setPhase v).idxout = s.idxout := rfl
@[simp] theorem State.setPhase_idx (v : Phase) : (s.setPhase v).idx = s.idx := rfl
@[simp] theorem State.setPhase_pln (v : Phase) : (s.setPhase v).pln = s.pln := rfl
@[simp] theorem State.setPhase_plane (v : Phase) (p : Fin 4) : (s.setPhase v).plane p = s.plane p := rfl
@[simp] theorem State.setPhase_out (v : Phase) : (s.setPhase v).out = s.out := rfl
@[simp] theorem State.setPhase_host (v : Phase) : (s.setPhase v).host = s.host := rfl
@[simp] theorem State.setPhase_npix (v : Phase) : (s.setPhase v).npix = s.npix := rfl
@[simp] theorem State.setPhase_ps (v : Phase) : (s.setPhase v).ps = s.ps := rfl

/-! ## `State.setErr` -/

@[simp] theorem State.setErr_params (v : Cause) : (s.setErr v).params = s.params := rfl
@[simp] theorem State.setErr_width (v : Cause) : (s.setErr v).width = s.width := rfl
@[simp] theorem State.setErr_height (v : Cause) : (s.setErr v).height = s.height := rfl
@[simp] theorem State.setErr_cur (v : Cause) : (s.setErr v).cur = s.cur := rfl
@[simp] theorem State.setErr_phase (v : Cause) : (s.setErr v).phase = s.phase := rfl
@[simp] theorem State.setErr_err (v : Cause) : (s.setErr v).err = v := rfl
@[simp] theorem State.setErr_count (v : Cause) : (s.setErr v).count = s.count := rfl
@[simp] theorem State.setErr_idxout (v : Cause) : (s.setErr v).idxout = s.idxout := rfl
@[simp] theorem State.setErr_idx (v : Cause) : (s.setErr v).idx = s.idx := rfl
@[simp] theorem State.setErr_pln (v : Cause) : (s.setErr v).pln = s.pln := rfl
@[simp] theorem State.setErr_plane (v : Cause) (p : Fin 4) : (s.setErr v).plane p = s.plane p := rfl
@[simp] theorem State.setErr_out (v : Cause) : (s.setErr v).out = s.out := rfl
@[simp] theorem State.setErr_host (v : Cause) : (s.setErr v).host = s.host := rfl
@[simp] theorem State.setErr_npix (v : Cause) : (s.setErr v).npix = s.npix := rfl
@[simp] theorem State.setErr_ps (v : Cause) : (s.setErr v).ps = s.ps := rfl

/-! ## `State.setCount` -/

@[simp] theorem State.setCount_params (v : Word) : (s.setCount v).params = s.params := rfl
@[simp] theorem State.setCount_width (v : Word) : (s.setCount v).width = s.width := rfl
@[simp] theorem State.setCount_height (v : Word) : (s.setCount v).height = s.height := rfl
@[simp] theorem State.setCount_cur (v : Word) : (s.setCount v).cur = s.cur := rfl
@[simp] theorem State.setCount_phase (v : Word) : (s.setCount v).phase = s.phase := rfl
@[simp] theorem State.setCount_err (v : Word) : (s.setCount v).err = s.err := rfl
@[simp] theorem State.setCount_count (v : Word) : (s.setCount v).count = v := rfl
@[simp] theorem State.setCount_idxout (v : Word) : (s.setCount v).idxout = s.idxout := rfl
@[simp] theorem State.setCount_idx (v : Word) : (s.setCount v).idx = s.idx := rfl
@[simp] theorem State.setCount_pln (v : Word) : (s.setCount v).pln = s.pln := rfl
@[simp] theorem State.setCount_plane (v : Word) (p : Fin 4) : (s.setCount v).plane p = s.plane p := rfl
@[simp] theorem State.setCount_out (v : Word) : (s.setCount v).out = s.out := rfl
@[simp] theorem State.setCount_host (v : Word) : (s.setCount v).host = s.host := rfl
@[simp] theorem State.setCount_npix (v : Word) : (s.setCount v).npix = s.npix := rfl
@[simp] theorem State.setCount_ps (v : Word) : (s.setCount v).ps = s.ps := rfl

/-! ## `State.setIdxout` -/

@[simp] theorem State.setIdxout_params (v : Byte) : (s.setIdxout v).params = s.params := rfl
@[simp] theorem State.setIdxout_width (v : Byte) : (s.setIdxout v).width = s.width := rfl
@[simp] theorem State.setIdxout_height (v : Byte) : (s.setIdxout v).height = s.height := rfl
@[simp] theorem State.setIdxout_cur (v : Byte) : (s.setIdxout v).cur = s.cur := rfl
@[simp] theorem State.setIdxout_phase (v : Byte) : (s.setIdxout v).phase = s.phase := rfl
@[simp] theorem State.setIdxout_err (v : Byte) : (s.setIdxout v).err = s.err := rfl
@[simp] theorem State.setIdxout_count (v : Byte) : (s.setIdxout v).count = s.count := rfl
@[simp] theorem State.setIdxout_idxout (v : Byte) : (s.setIdxout v).idxout = v := rfl
@[simp] theorem State.setIdxout_idx (v : Byte) : (s.setIdxout v).idx = s.idx := rfl
@[simp] theorem State.setIdxout_pln (v : Byte) : (s.setIdxout v).pln = s.pln := rfl
@[simp] theorem State.setIdxout_plane (v : Byte) (p : Fin 4) : (s.setIdxout v).plane p = s.plane p := rfl
@[simp] theorem State.setIdxout_out (v : Byte) : (s.setIdxout v).out = s.out := rfl
@[simp] theorem State.setIdxout_host (v : Byte) : (s.setIdxout v).host = s.host := rfl
@[simp] theorem State.setIdxout_npix (v : Byte) : (s.setIdxout v).npix = s.npix := rfl
@[simp] theorem State.setIdxout_ps (v : Byte) : (s.setIdxout v).ps = s.ps := rfl

/-! ## `State.setIdx` -/

@[simp] theorem State.setIdx_params (v : Mem) : (s.setIdx v).params = s.params := rfl
@[simp] theorem State.setIdx_width (v : Mem) : (s.setIdx v).width = s.width := rfl
@[simp] theorem State.setIdx_height (v : Mem) : (s.setIdx v).height = s.height := rfl
@[simp] theorem State.setIdx_cur (v : Mem) : (s.setIdx v).cur = s.cur := rfl
@[simp] theorem State.setIdx_phase (v : Mem) : (s.setIdx v).phase = s.phase := rfl
@[simp] theorem State.setIdx_err (v : Mem) : (s.setIdx v).err = s.err := rfl
@[simp] theorem State.setIdx_count (v : Mem) : (s.setIdx v).count = s.count := rfl
@[simp] theorem State.setIdx_idxout (v : Mem) : (s.setIdx v).idxout = s.idxout := rfl
@[simp] theorem State.setIdx_idx (v : Mem) : (s.setIdx v).idx = v := rfl
@[simp] theorem State.setIdx_pln (v : Mem) : (s.setIdx v).pln = s.pln := rfl
@[simp] theorem State.setIdx_plane (v : Mem) (p : Fin 4) : (s.setIdx v).plane p = s.plane p := rfl
@[simp] theorem State.setIdx_out (v : Mem) : (s.setIdx v).out = s.out := rfl
@[simp] theorem State.setIdx_host (v : Mem) : (s.setIdx v).host = s.host := rfl
@[simp] theorem State.setIdx_npix (v : Mem) : (s.setIdx v).npix = s.npix := rfl
@[simp] theorem State.setIdx_ps (v : Mem) : (s.setIdx v).ps = s.ps := rfl

/-! ## `State.setPln` -/

@[simp] theorem State.setPln_params (v : Vector Mem 4) : (s.setPln v).params = s.params := rfl
@[simp] theorem State.setPln_width (v : Vector Mem 4) : (s.setPln v).width = s.width := rfl
@[simp] theorem State.setPln_height (v : Vector Mem 4) : (s.setPln v).height = s.height := rfl
@[simp] theorem State.setPln_cur (v : Vector Mem 4) : (s.setPln v).cur = s.cur := rfl
@[simp] theorem State.setPln_phase (v : Vector Mem 4) : (s.setPln v).phase = s.phase := rfl
@[simp] theorem State.setPln_err (v : Vector Mem 4) : (s.setPln v).err = s.err := rfl
@[simp] theorem State.setPln_count (v : Vector Mem 4) : (s.setPln v).count = s.count := rfl
@[simp] theorem State.setPln_idxout (v : Vector Mem 4) : (s.setPln v).idxout = s.idxout := rfl
@[simp] theorem State.setPln_idx (v : Vector Mem 4) : (s.setPln v).idx = s.idx := rfl
@[simp] theorem State.setPln_pln (v : Vector Mem 4) : (s.setPln v).pln = v := rfl
@[simp] theorem State.setPln_out (v : Vector Mem 4) : (s.setPln v).out = s.out := rfl
@[simp] theorem State.setPln_host (v : Vector Mem 4) : (s.setPln v).host = s.host := rfl
@[simp] theorem State.setPln_npix (v : Vector Mem 4) : (s.setPln v).npix = s.npix := rfl
@[simp] theorem State.setPln_ps (v : Vector Mem 4) : (s.setPln v).ps = s.ps := rfl

/-! ## `State.setOut` -/

@[simp] theorem State.setOut_params (v : List Byte) : (s.setOut v).params = s.params := rfl
@[simp] theorem State.setOut_width (v : List Byte) : (s.setOut v).width = s.width := rfl
@[simp] theorem State.setOut_height (v : List Byte) : (s.setOut v).height = s.height := rfl
@[simp] theorem State.setOut_cur (v : List Byte) : (s.setOut v).cur = s.cur := rfl
@[simp] theorem State.setOut_phase (v : List Byte) : (s.setOut v).phase = s.phase := rfl
@[simp] theorem State.setOut_err (v : List Byte) : (s.setOut v).err = s.err := rfl
@[simp] theorem State.setOut_count (v : List Byte) : (s.setOut v).count = s.count := rfl
@[simp] theorem State.setOut_idxout (v : List Byte) : (s.setOut v).idxout = s.idxout := rfl
@[simp] theorem State.setOut_idx (v : List Byte) : (s.setOut v).idx = s.idx := rfl
@[simp] theorem State.setOut_pln (v : List Byte) : (s.setOut v).pln = s.pln := rfl
@[simp] theorem State.setOut_plane (v : List Byte) (p : Fin 4) : (s.setOut v).plane p = s.plane p := rfl
@[simp] theorem State.setOut_out (v : List Byte) : (s.setOut v).out = v := rfl
@[simp] theorem State.setOut_host (v : List Byte) : (s.setOut v).host = s.host := rfl
@[simp] theorem State.setOut_npix (v : List Byte) : (s.setOut v).npix = s.npix := rfl
@[simp] theorem State.setOut_ps (v : List Byte) : (s.setOut v).ps = s.ps := rfl

/-! ## `State.setHost` -/

@[simp] theorem State.setHost_params (v : List HostAction) : (s.setHost v).params = s.params := rfl
@[simp] theorem State.setHost_width (v : List HostAction) : (s.setHost v).width = s.width := rfl
@[simp] theorem State.setHost_height (v : List HostAction) : (s.setHost v).height = s.height := rfl
@[simp] theorem State.setHost_cur (v : List HostAction) : (s.setHost v).cur = s.cur := rfl
@[simp] theorem State.setHost_phase (v : List HostAction) : (s.setHost v).phase = s.phase := rfl
@[simp] theorem State.setHost_err (v : List HostAction) : (s.setHost v).err = s.err := rfl
@[simp] theorem State.setHost_count (v : List HostAction) : (s.setHost v).count = s.count := rfl
@[simp] theorem State.setHost_idxout (v : List HostAction) : (s.setHost v).idxout = s.idxout := rfl
@[simp] theorem State.setHost_idx (v : List HostAction) : (s.setHost v).idx = s.idx := rfl
@[simp] theorem State.setHost_pln (v : List HostAction) : (s.setHost v).pln = s.pln := rfl
@[simp] theorem State.setHost_plane (v : List HostAction) (p : Fin 4) : (s.setHost v).plane p = s.plane p := rfl
@[simp] theorem State.setHost_out (v : List HostAction) : (s.setHost v).out = s.out := rfl
@[simp] theorem State.setHost_host (v : List HostAction) : (s.setHost v).host = v := rfl
@[simp] theorem State.setHost_npix (v : List HostAction) : (s.setHost v).npix = s.npix := rfl
@[simp] theorem State.setHost_ps (v : List HostAction) : (s.setHost v).ps = s.ps := rfl

/-! ## `State.setPlane` -/

@[simp] theorem State.setPlane_params (p : Fin 4) (m : Mem) : (s.setPlane p m).params = s.params := rfl
@[simp] theorem State.setPlane_width (p : Fin 4) (m : Mem) : (s.setPlane p m).width = s.width := rfl
@[simp] theorem State.setPlane_height (p : Fin 4) (m : Mem) : (s.setPlane p m).height = s.height := rfl
@[simp] theorem State.setPlane_cur (p : Fin 4) (m : Mem) : (s.setPlane p m).cur = s.cur := rfl
@[simp] theorem State.setPlane_phase (p : Fin 4) (m : Mem) : (s.setPlane p m).phase = s.phase := rfl
@[simp] theorem State.setPlane_err (p : Fin 4) (m : Mem) : (s.setPlane p m).err = s.err := rfl
@[simp] theorem State.setPlane_count (p : Fin 4) (m : Mem) : (s.setPlane p m).count = s.count := rfl
@[simp] theorem State.setPlane_idxout (p : Fin 4) (m : Mem) : (s.setPlane p m).idxout = s.idxout := rfl
@[simp] theorem State.setPlane_idx (p : Fin 4) (m : Mem) : (s.setPlane p m).idx = s.idx := rfl
@[simp] theorem State.setPlane_out (p : Fin 4) (m : Mem) : (s.setPlane p m).out = s.out := rfl
@[simp] theorem State.setPlane_host (p : Fin 4) (m : Mem) : (s.setPlane p m).host = s.host := rfl
@[simp] theorem State.setPlane_npix (p : Fin 4) (m : Mem) : (s.setPlane p m).npix = s.npix := rfl
@[simp] theorem State.setPlane_ps (p : Fin 4) (m : Mem) : (s.setPlane p m).ps = s.ps := rfl

/-! ## The reset input -/

@[simp] theorem resetCore_params : (resetCore s).params = s.params := rfl
@[simp] theorem resetCore_width : (resetCore s).width = 0 := rfl
@[simp] theorem resetCore_height : (resetCore s).height = 0 := rfl
@[simp] theorem resetCore_cur : (resetCore s).cur = 0 := rfl
@[simp] theorem resetCore_phase : (resetCore s).phase = .idle := rfl
@[simp] theorem resetCore_err : (resetCore s).err = .none := rfl
@[simp] theorem resetCore_count : (resetCore s).count = 0 := rfl
@[simp] theorem resetCore_idxout : (resetCore s).idxout = 0 := rfl
@[simp] theorem resetCore_idx : (resetCore s).idx = [] := rfl
@[simp] theorem resetCore_pln : (resetCore s).pln = noPlanes := rfl
@[simp] theorem resetCore_out : (resetCore s).out = [] := rfl
@[simp] theorem resetCore_host : (resetCore s).host = s.host := rfl

/-! ## The advance -/

@[simp] theorem advance_params : (advance s).params = s.params := rfl
@[simp] theorem advance_width : (advance s).width = s.width := rfl
@[simp] theorem advance_height : (advance s).height = s.height := rfl
@[simp] theorem advance_cur : (advance s).cur = BitVec.ofNat 32 (s.cur.toNat + 1) := rfl
@[simp] theorem advance_phase : (advance s).phase = if s.cur.toNat + 1 = s.npix then .ready else s.phase := rfl
@[simp] theorem advance_err : (advance s).err = s.err := rfl
@[simp] theorem advance_count : (advance s).count = s.count := rfl
@[simp] theorem advance_idxout : (advance s).idxout = s.idxout := rfl
@[simp] theorem advance_idx : (advance s).idx = s.idx := rfl
@[simp] theorem advance_pln : (advance s).pln = s.pln := rfl
@[simp] theorem advance_plane (p : Fin 4) : (advance s).plane p = s.plane p := rfl
@[simp] theorem advance_out : (advance s).out = s.out := rfl
@[simp] theorem advance_host : (advance s).host = s.host := rfl
@[simp] theorem advance_npix : (advance s).npix = s.npix := rfl
@[simp] theorem advance_ps : (advance s).ps = s.ps := rfl

end Sys2Proof.Machine
end

