-- ==== Sys2Proof/Laws/Memory.lean ====
section
/-! SUPPORT. The laws of the two memories: a read after a write, the canonical form, and one lemma per access that
says everything it can do. -/

namespace Sys2Proof.Machine

/-! ## Chains of accesses -/

/-- A chain of accesses answers a state only if its first access answers. -/
theorem bind_ok {α β : Type} {x : Except Fault α} {f : α → Except Fault β} {b : β} :
    (x >>= f) = .ok b ↔ ∃ a, x = .ok a ∧ f a = .ok b := by
  cases x <;> simp [bind, Except.bind]

@[simp] theorem ok_bind {α β : Type} (a : α) (f : α → Except Fault β) : (Except.ok a >>= f) = f a := rfl

@[simp] theorem error_bind {α β : Type} (e : Fault) (f : α → Except Fault β) :
    ((Except.error e : Except Fault α) >>= f) = .error e := rfl

@[simp] theorem pure_ok {α : Type} (a : α) : (pure a : Except Fault α) = .ok a := rfl

/-! ## One memory -/

@[simp] theorem Mem.read_nil (a : Nat) : Mem.read [] a = none := rfl

/-- A read after a write to the same address gives the value written. -/
@[simp] theorem Mem.read_write_same (m : Mem) (a : Nat) (v : Byte) : (m.write a v).read a = some v := by
  induction m with
  | nil => simp [Mem.write, Mem.read]
  | cons c m ih =>
    simp only [Mem.write]
    split_ifs with h1 h2
    · simp [Mem.read]
    · simp [Mem.read]
    · have : c.1 ≠ a := fun h => h2 h.symm
      simp [Mem.read, this, ih]

/-- A write leaves every other address alone. -/
theorem Mem.read_write_other (m : Mem) {a b : Nat} (v : Byte) (h : b ≠ a) : (m.write a v).read b = m.read b := by
  induction m with
  | nil => simp [Mem.write, Mem.read, h.symm]
  | cons c m ih =>
    simp only [Mem.write]
    split_ifs with h1 h2
    · simp [Mem.read, h.symm]
    · subst h2; simp [Mem.read, h.symm]
    · simp [Mem.read, ih]

/-- The two laws as one equation. -/
theorem Mem.read_write (m : Mem) (a b : Nat) (v : Byte) :
    (m.write a v).read b = if b = a then some v else m.read b := by
  split_ifs with h
  · subst h; simp
  · exact m.read_write_other v h

/-- The cells of a memory after a write: the one written, or one that stood before. -/
theorem Mem.mem_write {m : Mem} {a : Nat} {v : Byte} {c : Host.Cell} (h : c ∈ m.write a v) : c = (a, v) ∨ c ∈ m := by
  induction m with
  | nil => simpa [Mem.write] using h
  | cons d m ih =>
    simp only [Mem.write] at h
    split_ifs at h
    · simpa using h
    · rcases List.mem_cons.mp h with h | h
      · exact .inl h
      · exact .inr (List.mem_cons_of_mem _ h)
    · rcases List.mem_cons.mp h with h | h
      · exact .inr (by simp [h])
      · exact (ih h).imp id (List.mem_cons_of_mem _)

/-- A write keeps the canonical form. -/
theorem Mem.write_wf {m : Mem} (a : Nat) (v : Byte) (h : m.wf) : (m.write a v).wf := by
  induction m with
  | nil => simp [Mem.wf, Mem.write]
  | cons c m ih =>
    have hc : ∀ d ∈ m, c.1 < d.1 := by
      intro d hd
      exact (List.pairwise_cons.mp h).1 d.1 (List.mem_map_of_mem hd)
    have hm : Mem.wf m := (List.pairwise_cons.mp h).2
    simp only [Mem.write]
    split_ifs with h1 h2
    · refine List.pairwise_cons.mpr ⟨?_, h⟩
      simp only [List.map_cons, List.mem_cons, List.mem_map]
      rintro x (rfl | ⟨d, hd, rfl⟩)
      · exact h1
      · exact h1.trans (hc d hd)
    · subst h2; exact h
    · refine List.pairwise_cons.mpr ⟨?_, ih hm⟩
      intro x hx
      obtain ⟨d, hd, rfl⟩ := List.mem_map.mp hx
      rcases Mem.mem_write hd with rfl | hd
      · exact lt_of_le_of_ne (not_lt.mp h1) (fun e => h2 e.symm)
      · exact hc d hd

/-- A value read is the value of a cell. -/
theorem Mem.mem_of_read {m : Mem} {a : Nat} {v : Byte} (h : m.read a = some v) : (a, v) ∈ m := by
  induction m with
  | nil => simp at h
  | cons c m ih =>
    simp only [Mem.read] at h
    split_ifs at h with h1
    · obtain ⟨rfl⟩ := Option.some.inj h; subst h1; simp
    · exact List.mem_cons_of_mem _ (ih h)

theorem Mem.nil_wf : Mem.wf [] := by simp [Mem.wf]

/-- The memories of the state after reset are in canonical form. -/
theorem reset_memories_wf : State.reset.idx.wf ∧ ∀ p : Fin 4, (State.reset.plane p).wf := by
  refine ⟨Mem.nil_wf, fun p => ?_⟩
  have hp : p = 0 ∨ p = 1 ∨ p = 2 ∨ p = 3 := by revert p; decide
  rcases hp with rfl | rfl | rfl | rfl <;> exact Mem.nil_wf

@[simp] theorem plane_noPlanes (s : State) (p : Fin 4) : (s.setPln noPlanes).plane p = [] := by
  have hp : p = 0 ∨ p = 1 ∨ p = 2 ∨ p = 3 := by revert p; decide
  rcases hp with rfl | rfl | rfl | rfl <;> rfl

@[simp] theorem plane_resetCore (s : State) (p : Fin 4) : (resetCore s).plane p = [] := by
  have hp : p = 0 ∨ p = 1 ∨ p = 2 ∨ p = 3 := by revert p; decide
  rcases hp with rfl | rfl | rfl | rfl <;> rfl

/-- The planes after one is replaced. -/
theorem plane_setPlane (s : State) (p q : Fin 4) (m : Mem) :
    (s.setPlane p m).plane q = if q = p then m else s.plane q := by
  unfold State.plane State.setPlane
  simp only [State.setPln_pln, Fin.getElem_fin, Vector.getElem_set, Fin.ext_iff]
  simp only [eq_comm]

/-! ## The accesses of the core -/

/-- A read of a slot answers only the value the slot holds, and only below the capacity. -/
theorem readIdx_ok {s : State} {n : Nat} {v : Byte} :
    readIdx s n = .ok v ↔ n < s.params.idxCap ∧ s.idx.read n = some v := by
  unfold readIdx
  split_ifs with h
  · cases hr : s.idx.read n <;> simp [h]
  · simp [h]

/-- A write of a slot answers below the capacity, and changes that slot alone. -/
theorem writeIdx_ok {s t : State} {n : Nat} {v : Byte} :
    writeIdx s n v = .ok t ↔ n < s.params.idxCap ∧ t = s.setIdx (s.idx.write n v) := by
  unfold writeIdx
  split_ifs with h <;> simp [h, eq_comm]

/-- A read of a plane byte answers only the value the byte holds, and only below the capacity. -/
theorem readPln_ok {s : State} {p : Fin 4} {o : Nat} {v : Byte} :
    readPln s p o = .ok v ↔ o < s.params.plnCap ∧ (s.plane p).read o = some v := by
  unfold readPln
  split_ifs with h
  · cases hr : (s.plane p).read o <;> simp [h]
  · simp [h]

/-- A write of a plane byte answers below the capacity, and changes that byte alone. -/
theorem writePln_ok {s t : State} {p : Fin 4} {o : Nat} {v : Byte} :
    writePln s p o v = .ok t ↔ o < s.params.plnCap ∧ t = s.setPlane p ((s.plane p).write o v) := by
  unfold writePln
  split_ifs with h <;> simp [h, eq_comm]

/-- What a plane byte reads as after a write of a plane byte. -/
theorem read_after_writePln {s t : State} {p : Fin 4} {o : Nat} {v : Byte} (h : writePln s p o v = .ok t)
    (q : Fin 4) (a : Nat) : (t.plane q).read a = if q = p ∧ a = o then some v else (s.plane q).read a := by
  obtain ⟨-, rfl⟩ := writePln_ok.mp h
  simp only [plane_setPlane]
  by_cases hq : q = p
  · subst hq; simp [Mem.read_write]
  · simp [hq]

/-- A write of a plane byte keeps the form of the planes. -/
theorem writePln_wf {s t : State} {p : Fin 4} {o : Nat} {v : Byte} (h : writePln s p o v = .ok t)
    (hw : ∀ q : Fin 4, (s.plane q).wf) (q : Fin 4) : (t.plane q).wf := by
  obtain ⟨-, rfl⟩ := writePln_ok.mp h
  simp only [plane_setPlane]
  split_ifs
  · exact Mem.write_wf _ _ (hw p)
  · exact hw q

/-- A write of a plane byte keeps every listed byte below the capacity. -/
theorem writePln_bound {s t : State} {p : Fin 4} {o : Nat} {v : Byte} (h : writePln s p o v = .ok t)
    (hb : ∀ q : Fin 4, ∀ c ∈ s.plane q, c.1 < s.params.plnCap) (q : Fin 4) :
    ∀ c ∈ t.plane q, c.1 < t.params.plnCap := by
  obtain ⟨ho, rfl⟩ := writePln_ok.mp h
  simp only [plane_setPlane, State.setPlane_params]
  split_ifs
  · intro c hc
    rcases Mem.mem_write hc with rfl | hc
    · exact ho
    · exact hb p c hc
  · exact hb q

end Sys2Proof.Machine
end

