-- ==== Sys2Proof/Laws/Ops.lean ====
section
/-! SUPPORT. One lemma per shared operation: everything it can do. -/

namespace Sys2Proof.Machine

open Sys2Proof.Safety

variable {s t : State}

/-! ## Outcomes -/

theorem commit_next {x : Except Fault State} : commit x = .next t ↔ x = .ok t := by
  cases x <;> simp [commit]

theorem commit_fault {x : Except Fault State} {f : Fault} : commit x = .fault f ↔ x = .error f := by
  cases x <;> simp [commit]

theorem commit_not_refused {x : Except Fault State} {r : Refusal} : commit x ≠ .refused r := by
  cases x <;> simp [commit]

@[simp] theorem commit_ok (s : State) : commit (.ok s) = .next s := rfl

@[simp] theorem commit_error (f : Fault) : commit (.error f) = .fault f := rfl

/-! ## Trap entry -/

/-- A raise always answers the trapped state, with both memories forgotten. -/
theorem raise_next {c : Cause} :
    raise c s = .next t ↔ t = (((s.setErr c).setPhase .halt).setIdx []).setPln noPlanes := by
  simp [raise, eq_comm]

/-- What the spec says of the state a raise leaves. -/
theorem raise_trapped (c : Cause) (s : State) : NextSatisfies (raise c s) (Trapped c s) :=
  ⟨_, rfl, by simp [Trapped]⟩

theorem trapped_of_raise {c : Cause} (h : raise c s = .next t) : Trapped c s t := by
  rw [raise_next] at h; subst h; simp [Trapped]

/-- The memory invariants hold after a raise: nothing is listed and nothing can be read. -/
theorem memInv_of_raise {c : Cause} (h : raise c s = .next t) : MemInv t := by
  rw [raise_next] at h; subst h
  refine ⟨Mem.nil_wf, ?_, by simp, ?_, by simp [HasImage], by simp⟩
  · intro p; simp only [plane_noPlanes]; exact Mem.nil_wf
  · intro p; simp only [plane_noPlanes]; simp

/-! ## Admission -/

/-- A command answers a next state only in a live phase: its own rule where it is admitted, a trap elsewhere. -/
theorem whenAdmitted_next {phases : List Phase} {body : Result} (h : whenAdmitted phases s body = .next t) :
    s.phase.live = true ∧
      ((s.phase ∈ phases ∧ body = .next t) ∨ (s.phase ∉ phases ∧ raise .illegalCommand s = .next t)) := by
  unfold whenAdmitted at h
  split_ifs at h with h1 h2
  · exact ⟨h1, .inl ⟨h2, h⟩⟩
  · exact ⟨h1, .inr ⟨h2, h⟩⟩

/-- A command faults in a final phase, or where its own rule does. -/
theorem whenAdmitted_fault {phases : List Phase} {body : Result} {f : Fault} (h : whenAdmitted phases s body = .fault f) :
    (s.phase.live = false ∧ f = .noStep) ∨ (s.phase ∈ phases ∧ body = .fault f) := by
  unfold whenAdmitted at h
  split_ifs at h with h1 h2
  · exact .inr ⟨h2, h⟩
  · simp [raise] at h
  · exact .inl ⟨by simpa using h1, by simpa using h.symm⟩

/-- A command is refused only where its own rule refuses. -/
theorem whenAdmitted_refused {phases : List Phase} {body : Result} {r : Refusal} (h : whenAdmitted phases s body = .refused r) :
    body = .refused r := by
  unfold whenAdmitted at h
  split_ifs at h
  · exact h
  · simp [raise] at h

/-- In an admitting phase a command follows its own rule. -/
theorem whenAdmitted_of_mem {phases : List Phase} (body : Result) (hl : s.phase.live = true) (hm : s.phase ∈ phases) :
    whenAdmitted phases s body = body := by
  simp [whenAdmitted, hl, hm]

/-! ## Filling -/

/-- A fill answers below the capacity; it writes the slot at the old `CUR` and advances. -/
theorem fillNext_ok {v : Byte} :
    fillNext s v = .ok t ↔
      s.cur.toNat < s.params.idxCap ∧ t = advance (s.setIdx (s.idx.write s.cur.toNat v)) := by
  unfold fillNext
  rw [bind_ok]
  constructor
  · rintro ⟨a, ha, h⟩
    obtain ⟨h1, rfl⟩ := writeIdx_ok.mp ha
    exact ⟨h1, by simpa [eq_comm] using h⟩
  · rintro ⟨h1, rfl⟩
    exact ⟨_, writeIdx_ok.mpr ⟨h1, rfl⟩, rfl⟩

/-! ## The machine's step -/

/-- What a step that answers a next state did. -/
theorem step_next (h : step s = .next t) :
    (s.host = [] ∧ t = s) ∨
    (∃ rest, s.host = .reset :: rest ∧ t = resetCore (s.setHost rest)) ∨
    (∃ w rest i, s.host = .command w :: rest ∧ decode w = .ok i ∧ exec i (s.setHost rest) = .next t) ∨
    (∃ w rest e, s.host = .command w :: rest ∧ decode w = .error e ∧ s.phase.live = true ∧
      raise .illegalCommand (s.setHost rest) = .next t) := by
  unfold step at h
  split at h
  · next hh => exact .inl ⟨hh, by simpa [hostIdle, eq_comm] using h⟩
  · next rest hh => exact .inr (.inl ⟨rest, hh, by simpa [resetPin, eq_comm] using h⟩)
  · next w rest hh =>
    split at h
    · next i hd => exact .inr (.inr (.inl ⟨w, rest, i, hh, hd, h⟩))
    · next e hd =>
      unfold illegalWord at h
      split_ifs at h with hl
      exact .inr (.inr (.inr ⟨w, rest, e, hh, hd, hl, h⟩))

end Sys2Proof.Machine
end

