-- ==== Sys2Proof/Laws/Packer.lean ====
section
/-! SUPPORT. The packer's loops, each said once: what state it leaves, and when it answers one. -/

namespace Sys2Proof.Machine

variable {s t : State}

/-- Both plane memories' conditions: canonical form, and nothing listed at or above the capacity. -/
abbrev PlnForm (s : State) : Prop :=
  (∀ p : Fin 4, (s.plane p).wf) ∧ ∀ p : Fin 4, ∀ c ∈ s.plane p, c.1 < s.params.plnCap

theorem writePln_form {p : Fin 4} {o : Nat} {v : Byte} (h : writePln s p o v = .ok t) (hf : PlnForm s) : PlnForm t :=
  ⟨writePln_wf h hf.1, writePln_bound h hf.2⟩

theorem writePln_frame {p : Fin 4} {o : Nat} {v : Byte} (h : writePln s p o v = .ok t) : t = s.setPln t.pln := by
  obtain ⟨-, rfl⟩ := writePln_ok.mp h; rfl

/-- Two frames in a row are one. -/
theorem setPln_trans {u : State} (h1 : t = s.setPln t.pln) (h2 : u = t.setPln u.pln) : u = s.setPln u.pln := by
  rw [h2, h1]; rfl

theorem params_of_frame (h : t = s.setPln t.pln) : t.params = s.params := by rw [h]; rfl

theorem idx_of_frame (h : t = s.setPln t.pln) : t.idx = s.idx := by rw [h]; rfl

theorem width_of_frame (h : t = s.setPln t.pln) : t.width = s.width := by rw [h]; rfl

/-! ## Zeroing -/

/-- Zeroing one offset: all four planes read 0 there, every other byte is as before. -/
theorem zeroByte_ok {o : Nat} (h : zeroByte s o = .ok t) :
    t = s.setPln t.pln ∧ (∀ q : Fin 4, ∀ a, (t.plane q).read a = if a = o then some 0 else (s.plane q).read a) ∧
      (PlnForm s → PlnForm t) := by
  unfold zeroByte at h
  obtain ⟨s1, h1, h⟩ := bind_ok.mp h
  obtain ⟨s2, h2, h⟩ := bind_ok.mp h
  obtain ⟨s3, h3, h4⟩ := bind_ok.mp h
  refine ⟨setPln_trans (setPln_trans (setPln_trans (writePln_frame h1) (writePln_frame h2)) (writePln_frame h3))
    (writePln_frame h4), ?_, fun hf => writePln_form h4 (writePln_form h3 (writePln_form h2 (writePln_form h1 hf)))⟩
  intro q a
  rw [read_after_writePln h4, read_after_writePln h3, read_after_writePln h2, read_after_writePln h1]
  have hq : q = 0 ∨ q = 1 ∨ q = 2 ∨ q = 3 := by revert q; decide
  rcases hq with rfl | rfl | rfl | rfl <;> by_cases ha : a = o <;> simp [ha]

theorem zeroByte_answers {o : Nat} (h : o < s.params.plnCap) : ∃ t, zeroByte s o = .ok t := by
  simp [zeroByte, writePln, h]

/-- Zeroing below `k`: the used bytes read 0, the others are as before. -/
theorem zeroBelow_ok {k : Nat} (h : zeroBelow s k = .ok t) :
    t = s.setPln t.pln ∧ (∀ q : Fin 4, ∀ a, (t.plane q).read a = if a < k then some 0 else (s.plane q).read a) ∧
      (PlnForm s → PlnForm t) := by
  induction k generalizing t with
  | zero =>
    obtain rfl : s = t := by simpa [zeroBelow] using h
    exact ⟨rfl, by simp, id⟩
  | succ k ih =>
    obtain ⟨u, hu, h⟩ := bind_ok.mp h
    obtain ⟨f1, r1, p1⟩ := ih hu
    obtain ⟨f2, r2, p2⟩ := zeroByte_ok h
    refine ⟨setPln_trans f1 f2, fun q a => ?_, fun hf => p2 (p1 hf)⟩
    rw [r2, r1]
    by_cases h1 : a = k
    · simp [h1]
    · have : a < k + 1 ↔ a < k := by omega
      simp [h1, this]

theorem zeroBelow_answers {k : Nat} (h : k ≤ s.params.plnCap) : ∃ t, zeroBelow s k = .ok t := by
  induction k with
  | zero => exact ⟨s, rfl⟩
  | succ k ih =>
    obtain ⟨u, hu⟩ := ih (by omega)
    have hp := params_of_frame (zeroBelow_ok hu).1
    obtain ⟨t, ht⟩ := zeroByte_answers (s := u) (o := k) (by rw [hp]; omega)
    exact ⟨t, bind_ok.mpr ⟨u, hu, ht⟩⟩

/-! ## One pixel -/

/-- One plane's turn: the byte at `o` gains bit `k` when the index has bit `p`; every other byte is as before. -/
theorem packBit_ok {v : Byte} {o k : Nat} {p : Fin 4} (h : packBit v o k s p = .ok t) :
    t = s.setPln t.pln ∧
      (∀ q : Fin 4, ∀ a, (t.plane q).read a =
        if q = p ∧ a = o ∧ v.getLsbD p.val then ((s.plane q).read a).map (· ||| (1#8 <<< k)) else (s.plane q).read a) ∧
      (PlnForm s → PlnForm t) := by
  unfold packBit at h
  split_ifs at h with hv
  · obtain ⟨b, hb, h⟩ := bind_ok.mp h
    refine ⟨writePln_frame h, fun q a => ?_, writePln_form h⟩
    rw [read_after_writePln h]
    by_cases hq : q = p <;> by_cases ha : a = o <;> simp [hq, ha, hv, (readPln_ok.mp hb).2]
  · obtain rfl : s = t := by simpa using h
    exact ⟨rfl, by simp [hv], id⟩

theorem packBit_answers {v : Byte} {o k : Nat} {p : Fin 4} (h : o < s.params.plnCap)
    (hr : ((s.plane p).read o).isSome) : ∃ t, packBit v o k s p = .ok t := by
  obtain ⟨b, hb⟩ := Option.isSome_iff_exists.mp hr
  unfold packBit
  split_ifs
  · simp only [readPln_ok.mpr ⟨h, hb⟩, ok_bind]
    exact ⟨_, writePln_ok.mpr ⟨h, rfl⟩⟩
  · exact ⟨s, rfl⟩

/-- One pixel's turn: in every plane whose bit the index has, byte `n / 8` gains the pixel's bit; every other byte is
as before. -/
theorem packPixel_ok {n : Nat} (h : packPixel s n = .ok t) :
    ∃ slot, s.idx.read n = some slot ∧ t = s.setPln t.pln ∧
      (∀ q : Fin 4, ∀ a, (t.plane q).read a =
        if a = byteOffset n ∧ (slot &&& 0x0F#8).getLsbD q.val then
          ((s.plane q).read a).map (· ||| (1#8 <<< bitPosition s.width.toNat n))
        else (s.plane q).read a) ∧
      (PlnForm s → PlnForm t) := by
  unfold packPixel at h
  obtain ⟨slot, hs, h⟩ := bind_ok.mp h
  obtain ⟨s1, h1, h⟩ := bind_ok.mp h
  obtain ⟨s2, h2, h⟩ := bind_ok.mp h
  obtain ⟨s3, h3, h4⟩ := bind_ok.mp h
  obtain ⟨f1, r1, p1⟩ := packBit_ok h1
  obtain ⟨f2, r2, p2⟩ := packBit_ok h2
  obtain ⟨f3, r3, p3⟩ := packBit_ok h3
  obtain ⟨f4, r4, p4⟩ := packBit_ok h4
  refine ⟨slot, (readIdx_ok.mp hs).2, setPln_trans (setPln_trans (setPln_trans f1 f2) f3) f4, ?_,
    fun hf => p4 (p3 (p2 (p1 hf)))⟩
  intro q a
  rw [r4, r3, r2, r1]
  have hq : q = 0 ∨ q = 1 ∨ q = 2 ∨ q = 3 := by revert q; decide
  rcases hq with rfl | rfl | rfl | rfl <;> simp

theorem packPixel_answers {n : Nat} (hn : n < s.params.idxCap) (hs : (s.idx.read n).isSome)
    (ho : byteOffset n < s.params.plnCap) (hp : ∀ q : Fin 4, ((s.plane q).read (byteOffset n)).isSome) :
    ∃ t, packPixel s n = .ok t := by
  obtain ⟨slot, hslot⟩ := Option.isSome_iff_exists.mp hs
  unfold packPixel
  simp only [readIdx_ok.mpr ⟨hn, hslot⟩, ok_bind]
  have keep : ∀ {u v : State} {p : Fin 4} {x : Byte} {o k : Nat}, packBit x o k u p = .ok v →
      o < u.params.plnCap → (∀ q : Fin 4, ((u.plane q).read o).isSome) →
      o < v.params.plnCap ∧ ∀ q : Fin 4, ((v.plane q).read o).isSome := by
    intro u v p x o k h h1 h2
    obtain ⟨f, r, -⟩ := packBit_ok h
    refine ⟨by rw [params_of_frame f]; exact h1, fun q => ?_⟩
    rw [r]; split_ifs <;> simp [h2 q]
  obtain ⟨s1, h1⟩ := packBit_answers (v := slot &&& 0x0F#8) (k := bitPosition s.width.toNat n) ho (hp 0)
  obtain ⟨ho1, hp1⟩ := keep h1 ho hp
  obtain ⟨s2, h2⟩ := packBit_answers (v := slot &&& 0x0F#8) (k := bitPosition s.width.toNat n) ho1 (hp1 1)
  obtain ⟨ho2, hp2⟩ := keep h2 ho1 hp1
  obtain ⟨s3, h3⟩ := packBit_answers (v := slot &&& 0x0F#8) (k := bitPosition s.width.toNat n) ho2 (hp2 2)
  obtain ⟨ho3, hp3⟩ := keep h3 ho2 hp2
  obtain ⟨s4, h4⟩ := packBit_answers (v := slot &&& 0x0F#8) (k := bitPosition s.width.toNat n) ho3 (hp3 3)
  exact ⟨s4, by simp only [h1, ok_bind, h2, h3, h4]⟩

/-! ## All pixels -/

/-- The algorithm over the pixels below `k`, bit by bit: a bit of a byte is set afterwards exactly when it was set
before, or a pixel below `k` owns it and its index has the plane's bit. Only `PLN` changes. -/
theorem packBelow_ok {k : Nat} (h : packBelow s k = .ok t) :
    t = s.setPln t.pln ∧ (PlnForm s → PlnForm t) ∧
      (∀ q : Fin 4, ∀ a, (s.plane q).read a = none → (t.plane q).read a = none) ∧
      ∀ q : Fin 4, ∀ a b, (s.plane q).read a = some b → ∃ b', (t.plane q).read a = some b' ∧
        ∀ i < 8, b'.getLsbD i = true ↔ b.getLsbD i = true ∨
          ∃ n < k, byteOffset n = a ∧ bitPosition s.width.toNat n = i ∧
            ∃ slot, s.idx.read n = some slot ∧ (slot &&& 0x0F#8).getLsbD q.val = true := by
  induction k generalizing t with
  | zero =>
    obtain rfl : s = t := by simpa [packBelow] using h
    exact ⟨rfl, id, fun _ _ => id, fun q a b hb => ⟨b, hb, by simp⟩⟩
  | succ k ih =>
    obtain ⟨u, hu, h⟩ := bind_ok.mp h
    obtain ⟨f1, p1, n1, r1⟩ := ih hu
    obtain ⟨slot, hslot, f2, r2, p2⟩ := packPixel_ok h
    rw [idx_of_frame f1] at hslot
    rw [width_of_frame f1] at r2
    refine ⟨setPln_trans f1 f2, fun hf => p2 (p1 hf), fun q a hn => ?_, fun q a b hb => ?_⟩
    · rw [r2, n1 q a hn]; simp
    · obtain ⟨b1, hb1, h1⟩ := r1 q a b hb
      rw [r2, hb1]
      have split_last : ∀ P : Nat → Prop, (∃ n < k + 1, P n) ↔ (∃ n < k, P n) ∨ P k := by
        intro P; constructor
        · rintro ⟨n, hn, hp⟩
          rcases Nat.lt_succ_iff_lt_or_eq.mp hn with hn | rfl
          · exact .inl ⟨n, hn, hp⟩
          · exact .inr hp
        · rintro (⟨n, hn, hp⟩ | hp)
          · exact ⟨n, by omega, hp⟩
          · exact ⟨k, by omega, hp⟩
      have hpos : bitPosition s.width.toNat k < 8 := by unfold bitPosition; omega
      split_ifs with hc
      · refine ⟨_, rfl, fun i hi => ?_⟩
        rw [split_last]
        simp only [BitVec.getLsbD_or, Bool.or_eq_true, h1 i hi, hslot, Option.some.injEq, exists_eq_left',
          hc.1.symm, hc.2, true_and, and_true, or_assoc]
        have : (1#8 <<< bitPosition s.width.toNat k).getLsbD i = true ↔ bitPosition s.width.toNat k = i := by
          simp [BitVec.getLsbD_shiftLeft, BitVec.getLsbD_one]; omega
        rw [this]
      · refine ⟨b1, rfl, fun i hi => ?_⟩
        rw [split_last, h1 i hi]
        simp only [hslot, Option.some.injEq, exists_eq_left']
        have : ¬ (byteOffset k = a ∧ bitPosition s.width.toNat k = i ∧ (slot &&& 0x0F#8).getLsbD q.val = true) :=
          fun hh => hc ⟨hh.1.symm, hh.2.2⟩
        simp only [this, or_false]

theorem packBelow_answers {k : Nat}
    (h : ∀ n < k, n < s.params.idxCap ∧ (s.idx.read n).isSome ∧ byteOffset n < s.params.plnCap ∧
      ∀ q : Fin 4, ((s.plane q).read (byteOffset n)).isSome) : ∃ t, packBelow s k = .ok t := by
  induction k with
  | zero => exact ⟨s, rfl⟩
  | succ k ih =>
    obtain ⟨u, hu⟩ := ih (fun n hn => h n (by omega))
    obtain ⟨f, -, -, r⟩ := packBelow_ok hu
    obtain ⟨h1, h2, h3, h4⟩ := h k (by omega)
    obtain ⟨t, ht⟩ := packPixel_answers (s := u) (n := k) (by rw [params_of_frame f]; exact h1)
      (by rw [idx_of_frame f]; exact h2) (by rw [params_of_frame f]; exact h3) (fun q => by
        obtain ⟨b, hb⟩ := Option.isSome_iff_exists.mp (h4 q)
        obtain ⟨b', hb', -⟩ := r q _ b hb
        simp [hb'])
    exact ⟨t, bind_ok.mpr ⟨u, hu, ht⟩⟩

/-! ## Unpacking -/

/-- The index of one pixel, from one bit of one byte of each plane. -/
theorem unpackPixel_ok {n : Nat} {v : Byte} (h : unpackPixel s n = .ok v) :
    byteOffset n < s.params.plnCap ∧ ∃ bytes : Fin 4 → Byte,
      (∀ p : Fin 4, (s.plane p).read (byteOffset n) = some (bytes p)) ∧
      v = unpackBits bytes (bitPosition s.width.toNat n) := by
  unfold unpackPixel at h
  obtain ⟨b0, h0, h⟩ := bind_ok.mp h
  obtain ⟨b1, h1, h⟩ := bind_ok.mp h
  obtain ⟨b2, h2, h⟩ := bind_ok.mp h
  obtain ⟨b3, h3, h⟩ := bind_ok.mp h
  rw [readPln_ok] at h0 h1 h2 h3
  refine ⟨h0.1, fun p => #v[b0, b1, b2, b3][p], ?_, by simpa [eq_comm] using h⟩
  intro p
  have hp : p = 0 ∨ p = 1 ∨ p = 2 ∨ p = 3 := by revert p; decide
  rcases hp with rfl | rfl | rfl | rfl
  · exact h0.2
  · exact h1.2
  · exact h2.2
  · exact h3.2

theorem unpackPixel_answers {n : Nat} {bytes : Fin 4 → Byte} (ho : byteOffset n < s.params.plnCap)
    (h : ∀ p : Fin 4, (s.plane p).read (byteOffset n) = some (bytes p)) :
    unpackPixel s n = .ok (unpackBits bytes (bitPosition s.width.toNat n)) := by
  unfold unpackPixel
  simp only [readPln_ok.mpr ⟨ho, h 0⟩, readPln_ok.mpr ⟨ho, h 1⟩, readPln_ok.mpr ⟨ho, h 2⟩,
    readPln_ok.mpr ⟨ho, h 3⟩, ok_bind, pure_ok]
  congr 1

/-- Unpacking reads nothing of `IDX`. -/
theorem unpackPixel_setIdx (s : State) (m : Mem) (n : Nat) : unpackPixel (s.setIdx m) n = unpackPixel s n := rfl

/-- Unpacking below `k`: every slot below `k` takes its pixel's index, the others are as before; only `IDX`
changes. -/
theorem unpackBelow_ok {k : Nat} (h : unpackBelow s k = .ok t) :
    t = s.setIdx t.idx ∧ (s.idx.wf → t.idx.wf) ∧
      ((∀ c ∈ s.idx, c.1 < s.params.idxCap) → ∀ c ∈ t.idx, c.1 < s.params.idxCap) ∧
      (∀ n < k, n < s.params.idxCap ∧ ∃ v, unpackPixel s n = .ok v ∧ t.idx.read n = some v) ∧
      ∀ n, k ≤ n → t.idx.read n = s.idx.read n := by
  induction k generalizing t with
  | zero =>
    obtain rfl : s = t := by simpa [unpackBelow] using h
    exact ⟨rfl, id, id, by simp, fun _ _ => rfl⟩
  | succ k ih =>
    obtain ⟨u, hu, h⟩ := bind_ok.mp h
    obtain ⟨v, hv, h⟩ := bind_ok.mp h
    obtain ⟨f1, w1, b1, r1, o1⟩ := ih hu
    obtain ⟨hk, rfl⟩ := writeIdx_ok.mp h
    rw [f1, unpackPixel_setIdx] at hv
    have hcap : u.params = s.params := by rw [f1]; rfl
    rw [hcap] at hk
    refine ⟨by rw [f1]; rfl, fun hw => Mem.write_wf _ _ (w1 hw), ?_, ?_, ?_⟩
    · intro hb c hc
      rcases Mem.mem_write hc with rfl | hc
      · exact hk
      · exact b1 hb c hc
    · intro n hn
      by_cases hnk : n = k
      · subst hnk; exact ⟨hk, v, hv, by simp⟩
      · obtain ⟨hc, x, hx, hr⟩ := r1 n (by omega)
        exact ⟨hc, x, hx, by rw [State.setIdx_idx, Mem.read_write_other _ _ hnk, hr]⟩
    · intro n hn
      rw [State.setIdx_idx, Mem.read_write_other _ _ (by omega), o1 n (by omega)]

theorem unpackBelow_answers {k : Nat} (h : ∀ n < k, n < s.params.idxCap ∧ ∃ v, unpackPixel s n = .ok v) :
    ∃ t, unpackBelow s k = .ok t := by
  induction k with
  | zero => exact ⟨s, rfl⟩
  | succ k ih =>
    obtain ⟨u, hu⟩ := ih (fun n hn => h n (by omega))
    have f := (unpackBelow_ok hu).1
    obtain ⟨h1, v, hv⟩ := h k (by omega)
    have hv' : unpackPixel u k = .ok v := by rw [f, unpackPixel_setIdx, hv]
    have hcap : u.params = s.params := by rw [f]; rfl
    exact ⟨_, bind_ok.mpr ⟨u, hu, bind_ok.mpr ⟨v, hv', writeIdx_ok.mpr ⟨by rw [hcap]; exact h1, rfl⟩⟩⟩⟩

/-! ## Writing out -/

/-- The bytes of one plane, in order. -/
theorem planeBytes_ok {p : Fin 4} {k : Nat} {l : List Byte} (h : planeBytes s p k = .ok l) :
    l.length = k ∧ ∀ o < k, o < s.params.plnCap ∧ l[o]? = (s.plane p).read o := by
  induction k generalizing l with
  | zero =>
    obtain rfl : [] = l := by simpa [planeBytes] using h
    simp
  | succ k ih =>
    obtain ⟨l1, h1, h⟩ := bind_ok.mp h
    obtain ⟨b, hb, h⟩ := bind_ok.mp h
    obtain ⟨hl, hr⟩ := ih h1
    obtain ⟨hb1, hb2⟩ := readPln_ok.mp hb
    obtain rfl : l1 ++ [b] = l := by simpa using h
    refine ⟨by simp [hl], fun o ho => ?_⟩
    by_cases hk : o = k
    · subst hk; exact ⟨hb1, by rw [List.getElem?_append_right (by omega), hl]; simp [hb2]⟩
    · obtain ⟨h2, h3⟩ := hr o (by omega)
      exact ⟨h2, by rw [List.getElem?_append_left (by omega), h3]⟩

theorem planeBytes_answers {p : Fin 4} {k : Nat}
    (h : ∀ o < k, o < s.params.plnCap ∧ ((s.plane p).read o).isSome) : ∃ l, planeBytes s p k = .ok l := by
  induction k with
  | zero => exact ⟨[], rfl⟩
  | succ k ih =>
    obtain ⟨l, hl⟩ := ih (fun o ho => h o (by omega))
    obtain ⟨h1, h2⟩ := h k (by omega)
    obtain ⟨b, hb⟩ := Option.isSome_iff_exists.mp h2
    exact ⟨l ++ [b], bind_ok.mpr ⟨l, hl, bind_ok.mpr ⟨b, readPln_ok.mpr ⟨h1, hb⟩, rfl⟩⟩⟩

/-- The bytes of the output are those of the four planes, one plane after another. -/
theorem outputBytes_ok {l : List Byte} (h : outputBytes s = .ok l) :
    ∃ l0 l1 l2 l3, planeBytes s 0 s.ps = .ok l0 ∧ planeBytes s 1 s.ps = .ok l1 ∧ planeBytes s 2 s.ps = .ok l2 ∧
      planeBytes s 3 s.ps = .ok l3 ∧ l = l0 ++ l1 ++ l2 ++ l3 := by
  unfold outputBytes at h
  obtain ⟨l0, h0, h⟩ := bind_ok.mp h
  obtain ⟨l1, h1, h⟩ := bind_ok.mp h
  obtain ⟨l2, h2, h⟩ := bind_ok.mp h
  obtain ⟨l3, h3, h⟩ := bind_ok.mp h
  exact ⟨l0, l1, l2, l3, h0, h1, h2, h3, by simpa [eq_comm] using h⟩

theorem outputBytes_length {l : List Byte} (h : outputBytes s = .ok l) : l.length = 4 * s.ps := by
  obtain ⟨l0, l1, l2, l3, h0, h1, h2, h3, rfl⟩ := outputBytes_ok h
  simp [(planeBytes_ok h0).1, (planeBytes_ok h1).1, (planeBytes_ok h2).1, (planeBytes_ok h3).1]; omega

end Sys2Proof.Machine
end

