-- ==== Sys2Proof/Laws/Meanings.lean ====
section
/-! SUPPORT. One inversion lemma per meaning: when it answers a next state, which of its cases was taken. Every case
that is not a trap names the state it leaves. -/

namespace Sys2Proof.Machine

variable {s t : State}

/-- `DIM`: a trap with one of its three causes, or the accepted image. -/
theorem execDim_next {w h : Dim} (e : execDim w h s = .next t) :
    s.phase.live = true ∧
      ((s.phase ≠ .idle ∧ raise .illegalCommand s = .next t) ∨
       (s.phase = .idle ∧ (w = 0#16 ∨ h = 0#16 ∨ w.toNat % 8 ≠ 0) ∧ raise .constraintViolation s = .next t) ∨
       (s.phase = .idle ∧ s.params.idxCap < w.toNat * h.toNat ∧ raise .allocationFailure s = .next t) ∨
       (s.phase = .idle ∧ w ≠ 0#16 ∧ h ≠ 0#16 ∧ w.toNat % 8 = 0 ∧ w.toNat * h.toNat ≤ s.params.idxCap ∧
         t = ((s.setDims w h).setCur 0).setPhase .fill)) := by
  obtain ⟨hl, ⟨hm, e⟩ | ⟨hm, e⟩⟩ := whenAdmitted_next e
  · have hp : s.phase = .idle := by simpa using hm
    refine ⟨hl, .inr ?_⟩
    split_ifs at e with h1 h2 h3
    · exact .inl ⟨hp, by tauto, e⟩
    · exact .inl ⟨hp, .inr (.inr h2), e⟩
    · exact .inr (.inl ⟨hp, h3, e⟩)
    · refine .inr (.inr ⟨hp, fun hw => h1 (.inl hw), fun hh => h1 (.inr hh), not_not.mp h2, not_lt.mp h3, ?_⟩)
      simpa [eq_comm] using e
  · exact ⟨hl, .inl ⟨by simpa using hm, e⟩⟩

/-- `QPIX`: a trap out of phase, or the next slot filled with the index. -/
theorem execQpix_next {r g b a : Byte} (e : execQpix r g b a s = .next t) :
    s.phase.live = true ∧
      ((s.phase ≠ .fill ∧ raise .illegalCommand s = .next t) ∨
       (s.phase = .fill ∧ s.cur.toNat < s.params.idxCap ∧
         t = (advance (s.setIdx (s.idx.write s.cur.toNat
           (zext8 (quant s.params.pal { r := r, g := g, b := b }))))).setIdxout
             (zext8 (quant s.params.pal { r := r, g := g, b := b })))) := by
  obtain ⟨hl, ⟨hm, e⟩ | ⟨hm, e⟩⟩ := whenAdmitted_next e
  · obtain ⟨u, hu, e⟩ := bind_ok.mp (commit_next.mp e)
    obtain ⟨hc, rfl⟩ := fillNext_ok.mp hu
    exact ⟨hl, .inr ⟨by simpa using hm, hc, by simpa [eq_comm] using e⟩⟩
  · exact ⟨hl, .inl ⟨by simpa using hm, e⟩⟩

/-- `LDIX`: a trap out of phase, or the next slot filled with the value. -/
theorem execLdix_next {v : Byte} (e : execLdix v s = .next t) :
    s.phase.live = true ∧
      ((s.phase ≠ .fill ∧ raise .illegalCommand s = .next t) ∨
       (s.phase = .fill ∧ s.cur.toNat < s.params.idxCap ∧
         t = advance (s.setIdx (s.idx.write s.cur.toNat v)))) := by
  obtain ⟨hl, ⟨hm, e⟩ | ⟨hm, e⟩⟩ := whenAdmitted_next e
  · exact ⟨hl, .inr ⟨by simpa using hm, fillNext_ok.mp (commit_next.mp e)⟩⟩
  · exact ⟨hl, .inl ⟨by simpa using hm, e⟩⟩

/-- `RDIX`: a trap in `IDLE` or on a slot not written, or the slot on `IDXOUT`. -/
theorem execRdix_next {n : Word} (e : execRdix n s = .next t) :
    s.phase.live = true ∧
      ((s.phase = .idle ∧ raise .illegalCommand s = .next t) ∨
       (s.phase ≠ .idle ∧ s.cur.toNat ≤ n.toNat ∧ raise .illegalCommand s = .next t) ∨
       (s.phase ≠ .idle ∧ n.toNat < s.cur.toNat ∧ n.toNat < s.params.idxCap ∧
         ∃ v, s.idx.read n.toNat = some v ∧ t = s.setIdxout v)) := by
  obtain ⟨hl, ⟨hm, e⟩ | ⟨hm, e⟩⟩ := whenAdmitted_next e
  · have hp : s.phase ≠ .idle := by
      intro h; rw [h] at hm; simp at hm
    refine ⟨hl, .inr ?_⟩
    split_ifs at e with h1
    · exact .inl ⟨hp, h1, e⟩
    · obtain ⟨v, hv, e⟩ := bind_ok.mp (commit_next.mp e)
      obtain ⟨h2, h3⟩ := readIdx_ok.mp hv
      exact .inr ⟨hp, not_le.mp h1, h2, v, h3, by simpa [eq_comm] using e⟩
  · refine ⟨hl, .inl ⟨?_, e⟩⟩
    cases h : s.phase <;> simp [h, Phase.live] at hm hl ⊢

/-- `PACK`: a trap out of phase or for want of capacity, or the zeroing and the algorithm. -/
theorem execPack_next (e : execPack s = .next t) :
    s.phase.live = true ∧
      ((s.phase ≠ .ready ∧ raise .illegalCommand s = .next t) ∨
       (s.phase = .ready ∧ s.params.plnCap < s.ps ∧ raise .allocationFailure s = .next t) ∨
       (s.phase = .ready ∧ s.ps ≤ s.params.plnCap ∧ s.width.toNat % 8 = 0 ∧
         ∃ z u, zeroBelow s s.ps = .ok z ∧ packBelow z s.npix = .ok u ∧ t = u.setPhase .packed)) := by
  obtain ⟨hl, ⟨hm, e⟩ | ⟨hm, e⟩⟩ := whenAdmitted_next e
  · have hp : s.phase = .ready := by simpa using hm
    refine ⟨hl, .inr ?_⟩
    split_ifs at e with h1 h2
    · exact .inl ⟨hp, h1, e⟩
    · obtain ⟨z, hz, e⟩ := bind_ok.mp (commit_next.mp e)
      obtain ⟨u, hu, e⟩ := bind_ok.mp e
      exact .inr ⟨hp, not_lt.mp h1, not_not.mp h2, z, u, hz, hu, by simpa [eq_comm] using e⟩
  · exact ⟨hl, .inl ⟨by simpa using hm, e⟩⟩

/-- `UNPK`: a trap out of phase, or every used slot rebuilt. -/
theorem execUnpk_next (e : execUnpk s = .next t) :
    s.phase.live = true ∧
      ((s.phase ≠ .packed ∧ raise .illegalCommand s = .next t) ∨
       (s.phase = .packed ∧ s.width.toNat % 8 = 0 ∧ unpackBelow s s.npix = .ok t)) := by
  obtain ⟨hl, ⟨hm, e⟩ | ⟨hm, e⟩⟩ := whenAdmitted_next e
  · split_ifs at e with h1
    exact ⟨hl, .inr ⟨by simpa using hm, not_not.mp h1, commit_next.mp e⟩⟩
  · exact ⟨hl, .inl ⟨by simpa using hm, e⟩⟩

/-- `EMIT`: a trap out of phase, or the planes appended and the run ended. -/
theorem execEmit_next (e : execEmit s = .next t) :
    s.phase.live = true ∧
      ((s.phase ≠ .packed ∧ raise .illegalCommand s = .next t) ∨
       (s.phase = .packed ∧ ∃ bytes, outputBytes s = .ok bytes ∧
         t = ((s.setOut (s.out ++ bytes)).setCount (BitVec.ofNat 32 (4 * s.ps))).setPhase .done)) := by
  obtain ⟨hl, ⟨hm, e⟩ | ⟨hm, e⟩⟩ := whenAdmitted_next e
  · obtain ⟨bytes, hb, e⟩ := bind_ok.mp (commit_next.mp e)
    exact ⟨hl, .inr ⟨by simpa using hm, bytes, hb, by simpa [eq_comm] using e⟩⟩
  · exact ⟨hl, .inl ⟨by simpa using hm, e⟩⟩

/-- `ABORT 1`: always a trap. -/
theorem execAbortUsage_next (e : execAbortUsage s = .next t) :
    s.phase.live = true ∧
      ((s.phase = .idle ∧ raise .usageError s = .next t) ∨
       (s.phase ≠ .idle ∧ raise .illegalCommand s = .next t)) := by
  obtain ⟨hl, ⟨hm, e⟩ | ⟨hm, e⟩⟩ := whenAdmitted_next e
  · exact ⟨hl, .inl ⟨by simpa using hm, e⟩⟩
  · exact ⟨hl, .inr ⟨by simpa using hm, e⟩⟩

/-- `ABORT 2`: always a trap. -/
theorem execAbortLoad_next (e : execAbortLoad s = .next t) :
    s.phase.live = true ∧
      ((s.phase = .idle ∧ raise .resourceLoadError s = .next t) ∨
       (s.phase ≠ .idle ∧ raise .illegalCommand s = .next t)) := by
  obtain ⟨hl, ⟨hm, e⟩ | ⟨hm, e⟩⟩ := whenAdmitted_next e
  · exact ⟨hl, .inl ⟨by simpa using hm, e⟩⟩
  · exact ⟨hl, .inr ⟨by simpa using hm, e⟩⟩

/-- `ABORT 5`: always a trap. -/
theorem execAbortWrite_next (e : execAbortWrite s = .next t) :
    s.phase.live = true ∧
      ((s.phase = .packed ∧ raise .outputWriteError s = .next t) ∨
       (s.phase ≠ .packed ∧ raise .illegalCommand s = .next t)) := by
  obtain ⟨hl, ⟨hm, e⟩ | ⟨hm, e⟩⟩ := whenAdmitted_next e
  · exact ⟨hl, .inl ⟨by simpa using hm, e⟩⟩
  · exact ⟨hl, .inr ⟨by simpa using hm, e⟩⟩

/-- Zeroing and packing change nothing but `PLN`. -/
theorem pack_frame {z u : State} (hz : zeroBelow s s.ps = .ok z) (hu : packBelow z s.npix = .ok u) :
    u = s.setPln u.pln :=
  setPln_trans (zeroBelow_ok hz).1 (packBelow_ok hu).1

/-- Everything a command that answers a next state can have done: a trap, or the effect of one of the seven commands
that have one of their own. -/
theorem exec_next {i : Instr} (e : exec i s = .next t) :
    s.phase.live = true ∧
      ((∃ c, c ≠ .none ∧ raise c s = .next t) ∨
       (∃ w h, i = .dim w h ∧ s.phase = .idle ∧ w ≠ 0#16 ∧ h ≠ 0#16 ∧ w.toNat % 8 = 0 ∧
         w.toNat * h.toNat ≤ s.params.idxCap ∧ t = ((s.setDims w h).setCur 0).setPhase .fill) ∨
       (∃ r g b a, i = .qpix r g b a ∧ s.phase = .fill ∧ s.cur.toNat < s.params.idxCap ∧
         t = (advance (s.setIdx (s.idx.write s.cur.toNat
           (zext8 (quant s.params.pal { r := r, g := g, b := b }))))).setIdxout
             (zext8 (quant s.params.pal { r := r, g := g, b := b }))) ∨
       (∃ v, i = .ldix v ∧ s.phase = .fill ∧ s.cur.toNat < s.params.idxCap ∧
         t = advance (s.setIdx (s.idx.write s.cur.toNat v))) ∨
       (∃ n v, i = .rdix n ∧ s.phase ≠ .idle ∧ n.toNat < s.cur.toNat ∧ n.toNat < s.params.idxCap ∧
         s.idx.read n.toNat = some v ∧ t = s.setIdxout v) ∨
       (i = .pack ∧ s.phase = .ready ∧ s.ps ≤ s.params.plnCap ∧ s.width.toNat % 8 = 0 ∧
         ∃ z u, zeroBelow s s.ps = .ok z ∧ packBelow z s.npix = .ok u ∧ t = u.setPhase .packed) ∨
       (i = .unpk ∧ s.phase = .packed ∧ s.width.toNat % 8 = 0 ∧ unpackBelow s s.npix = .ok t) ∨
       (i = .emit ∧ s.phase = .packed ∧ ∃ bytes, outputBytes s = .ok bytes ∧
         t = ((s.setOut (s.out ++ bytes)).setCount (BitVec.ofNat 32 (4 * s.ps))).setPhase .done)) := by
  cases i with
  | dim w h =>
    obtain ⟨hl, ⟨-, e⟩ | ⟨-, -, e⟩ | ⟨-, -, e⟩ | h⟩ := execDim_next e
    · exact ⟨hl, .inl ⟨_, by simp, e⟩⟩
    · exact ⟨hl, .inl ⟨_, by simp, e⟩⟩
    · exact ⟨hl, .inl ⟨_, by simp, e⟩⟩
    · exact ⟨hl, .inr (.inl ⟨w, _, rfl, h⟩)⟩
  | qpix r g b a =>
    obtain ⟨hl, ⟨-, e⟩ | h⟩ := execQpix_next (a := a) e
    · exact ⟨hl, .inl ⟨_, by simp, e⟩⟩
    · exact ⟨hl, .inr (.inr (.inl ⟨r, g, b, a, rfl, h⟩))⟩
  | ldix v =>
    obtain ⟨hl, ⟨-, e⟩ | h⟩ := execLdix_next e
    · exact ⟨hl, .inl ⟨_, by simp, e⟩⟩
    · exact ⟨hl, .inr (.inr (.inr (.inl ⟨v, rfl, h⟩)))⟩
  | rdix n =>
    obtain ⟨hl, ⟨-, e⟩ | ⟨-, -, e⟩ | ⟨h1, h2, h3, v, h4, h5⟩⟩ := execRdix_next e
    · exact ⟨hl, .inl ⟨_, by simp, e⟩⟩
    · exact ⟨hl, .inl ⟨_, by simp, e⟩⟩
    · exact ⟨hl, .inr (.inr (.inr (.inr (.inl ⟨n, v, rfl, h1, h2, h3, h4, h5⟩))))⟩
  | pack =>
    obtain ⟨hl, ⟨-, e⟩ | ⟨-, -, e⟩ | h⟩ := execPack_next e
    · exact ⟨hl, .inl ⟨_, by simp, e⟩⟩
    · exact ⟨hl, .inl ⟨_, by simp, e⟩⟩
    · exact ⟨hl, .inr (.inr (.inr (.inr (.inr (.inl ⟨rfl, h⟩)))))⟩
  | unpk =>
    obtain ⟨hl, ⟨-, e⟩ | h⟩ := execUnpk_next e
    · exact ⟨hl, .inl ⟨_, by simp, e⟩⟩
    · exact ⟨hl, .inr (.inr (.inr (.inr (.inr (.inr (.inl ⟨rfl, h⟩))))))⟩
  | emit =>
    obtain ⟨hl, ⟨-, e⟩ | h⟩ := execEmit_next e
    · exact ⟨hl, .inl ⟨_, by simp, e⟩⟩
    · exact ⟨hl, .inr (.inr (.inr (.inr (.inr (.inr (.inr ⟨rfl, h⟩))))))⟩
  | abortUsage =>
    obtain ⟨hl, ⟨-, e⟩ | ⟨-, e⟩⟩ := execAbortUsage_next e <;> exact ⟨hl, .inl ⟨_, by simp, e⟩⟩
  | abortLoad =>
    obtain ⟨hl, ⟨-, e⟩ | ⟨-, e⟩⟩ := execAbortLoad_next e <;> exact ⟨hl, .inl ⟨_, by simp, e⟩⟩
  | abortWrite =>
    obtain ⟨hl, ⟨-, e⟩ | ⟨-, e⟩⟩ := execAbortWrite_next e <;> exact ⟨hl, .inl ⟨_, by simp, e⟩⟩

/-- No meaning refuses. -/
theorem exec_not_refused (i : Instr) (r : Refusal) : exec i s ≠ .refused r := by
  intro e
  cases i with
  | dim w h =>
    have h1 := whenAdmitted_refused e
    split_ifs at h1 <;> simp [raise] at h1
  | qpix r g b a => exact commit_not_refused (whenAdmitted_refused e)
  | ldix v => exact commit_not_refused (whenAdmitted_refused e)
  | rdix n =>
    have h1 := whenAdmitted_refused e
    split_ifs at h1
    · simp [raise] at h1
    · exact commit_not_refused h1
  | pack =>
    have h1 := whenAdmitted_refused e
    split_ifs at h1
    · simp [raise] at h1
    · exact commit_not_refused h1
  | unpk =>
    have h1 := whenAdmitted_refused e
    split_ifs at h1
    exact commit_not_refused h1
  | emit => exact commit_not_refused (whenAdmitted_refused e)
  | abortUsage => have h1 := whenAdmitted_refused e; simp [raise] at h1
  | abortLoad => have h1 := whenAdmitted_refused e; simp [raise] at h1
  | abortWrite => have h1 := whenAdmitted_refused e; simp [raise] at h1

end Sys2Proof.Machine
end

