-- ==== Sys2Proof/Laws/PerInstr.lean ====
section
/-! SUPPORT. The family OpcodeMap: a command's word belongs to the command's own row of the opcode map (R56). -/

namespace Sys2Proof.Laws.OpcodeMap

/-- The word of the command matches its row of the opcode map (R56). -/
def Statement (i : Instr) : Prop := i.row.covers (encode i) = true

theorem dim (w h : Dim) : Statement (.dim w h) := by
  have hop : opField (encode (.dim w h)) = 1#8 := by
    have := w.isLt
    have := h.isLt
    apply BitVec.eq_of_toNat_eq
    simp only [opField_toNat, encode_dim_toNat, BitVec.toNat_ofNat]; omega
  simp [Statement, OpcodeRow.covers, Instr.row, mask_opcode, hop]

theorem qpix (r g b a : Byte) : Statement (.qpix r g b a) := by
  have hop : opField (encode (.qpix r g b a)) = 2#8 := by
    have := r.isLt
    have := g.isLt
    have := b.isLt
    have := a.isLt
    apply BitVec.eq_of_toNat_eq
    simp only [opField_toNat, encode_qpix_toNat, BitVec.toNat_ofNat]; omega
  simp [Statement, OpcodeRow.covers, Instr.row, mask_opcode, hop]

theorem ldix (v : Byte) : Statement (.ldix v) := by
  have hop : opField (encode (.ldix v)) = 3#8 := by
    have := v.isLt
    apply BitVec.eq_of_toNat_eq
    simp only [opField_toNat, encode_ldix_toNat, BitVec.toNat_ofNat]; omega
  have hz : ldixZeros (encode (.ldix v)) = 0#24 := by
    have := v.isLt
    apply BitVec.eq_of_toNat_eq
    simp only [ldixZeros_toNat, encode_ldix_toNat, BitVec.toNat_ofNat]; omega
  simp [Statement, OpcodeRow.covers, Instr.row, mask_ldix, hop, hz]

theorem rdix (n : Word) : Statement (.rdix n) := by
  have hop : opField (encode (.rdix n)) = 4#8 := by
    have := n.isLt
    apply BitVec.eq_of_toNat_eq
    simp only [opField_toNat, encode_rdix_toNat, BitVec.toNat_ofNat]; omega
  simp [Statement, OpcodeRow.covers, Instr.row, mask_opcode, hop]

theorem pack : Statement .pack := by unfold Statement; decide

theorem unpk : Statement .unpk := by unfold Statement; decide

theorem emit : Statement .emit := by unfold Statement; decide

theorem abortUsage : Statement .abortUsage := by unfold Statement; decide

theorem abortLoad : Statement .abortLoad := by unfold Statement; decide

theorem abortWrite : Statement .abortWrite := by unfold Statement; decide

end Sys2Proof.Laws.OpcodeMap
end

