-- ==== Sys2Proof/Laws/Quantizer.lean ====
section
/-! SUPPORT. The scan and the tree, each said once: what a fold of scan turns ends with, and what a subtree puts out. -/

namespace Sys2Proof.Machine

/-- Zero-extending an index to a slot keeps its value. -/
@[simp] theorem zext8_toNat (i : Fin 16) : (zext8 i).toNat = i.val := by
  have := i.isLt
  simp only [zext8, BitVec.toNat_ofNat]; omega

/-- A turn of the scan ends with a pair of an entry and its distance, at most as far as before and as the entry seen. -/
theorem scanStep_spec (d : Fin 16 → Nat) (best : Nat × Fin 16) (j : Fin 16) (h : best.1 = d best.2) :
    (scanStep d best j).1 = d (scanStep d best j).2 ∧
      ((scanStep d best j = best ∧ d best.2 ≤ d j) ∨ (scanStep d best j = (d j, j) ∧ d j < d best.2)) := by
  unfold scanStep
  split_ifs with hc
  · exact ⟨rfl, .inr ⟨rfl, h ▸ hc⟩⟩
  · exact ⟨h, .inl ⟨rfl, h ▸ not_lt.mp hc⟩⟩

/-- The scan over an ascending list, from a best entry that lies below the list: it ends with the nearest of the best
entry and the list, the lowest among several. -/
theorem scan_fold (d : Fin 16 → Nat) (l : List (Fin 16)) (best : Nat × Fin 16) (h : best.1 = d best.2)
    (hl : (best.2 :: l).Pairwise (· < ·)) :
    ∀ q, q = (l.foldl (scanStep d) best).2 → q ∈ best.2 :: l ∧
      ∀ j ∈ best.2 :: l, d q ≤ d j ∧ (j < q → d q < d j) := by
  induction l generalizing best with
  | nil =>
    rintro q rfl
    refine ⟨by simp, fun j hj => ?_⟩
    obtain rfl : j = best.2 := by simpa using hj
    exact ⟨le_refl _, fun hlt => absurd hlt (lt_irrefl _)⟩
  | cons a l ih =>
    intro q hq
    rw [List.foldl_cons] at hq
    have hba : best.2 < a := (List.pairwise_cons.mp hl).1 a (by simp)
    have hbl : ∀ x ∈ l, best.2 < x := fun x hx => (List.pairwise_cons.mp hl).1 x (by simp [hx])
    have hal : (a :: l).Pairwise (· < ·) := (List.pairwise_cons.mp hl).2
    obtain ⟨h1, ⟨h2, h3⟩ | ⟨h2, h3⟩⟩ := scanStep_spec d best a h
    · rw [h2] at hq
      obtain ⟨m, r⟩ := ih best h (List.pairwise_cons.mpr ⟨hbl, (List.pairwise_cons.mp hal).2⟩) q hq
      refine ⟨?_, fun j hj => ?_⟩
      · rcases List.mem_cons.mp m with m | m <;> simp [m]
      · have hb := (r best.2 (by simp)).1
        rcases List.mem_cons.mp hj with rfl | hj
        · exact r best.2 (by simp)
        rcases List.mem_cons.mp hj with rfl | hj
        · refine ⟨by omega, fun hlt => ?_⟩
          have := (r best.2 (by simp)).2 (hba.trans hlt)
          omega
        · exact r j (by simp [hj])
    · rw [h2] at hq
      obtain ⟨m, r⟩ := ih (d a, a) rfl hal q hq
      refine ⟨List.mem_cons_of_mem _ m, fun j hj => ?_⟩
      rcases List.mem_cons.mp hj with rfl | hj
      · have := (r a (by simp)).1
        exact ⟨by omega, fun _ => by omega⟩
      · exact r j hj

/-- A subtree puts out the nearest of its leaves, the lowest among several. -/
theorem subtree_spec (d : Fin 16 → Nat) (k : Nat) : ∀ base, base + 2 ^ k ≤ 16 →
    ∀ r, r = subtree d k base → r.1 = d r.2 ∧ base ≤ r.2.val ∧ r.2.val < base + 2 ^ k ∧
      ∀ j : Fin 16, base ≤ j.val → j.val < base + 2 ^ k → d r.2 ≤ d j ∧ (j < r.2 → d r.2 < d j) := by
  induction k with
  | zero =>
    rintro base hb r rfl
    have hv : (Fin.ofNat 16 base).val = base := Nat.mod_eq_of_lt (by simpa using hb)
    refine ⟨rfl, hv.ge, by rw [subtree, hv]; omega, fun j h1 h2 => ?_⟩
    obtain rfl : j = Fin.ofNat 16 base := Fin.ext (by rw [hv]; omega)
    exact ⟨le_refl _, fun h => absurd h (lt_irrefl _)⟩
  | succ k ih =>
    rintro base hb r rfl
    rw [pow_succ, mul_two] at hb
    rw [pow_succ, mul_two]
    have hpos := Nat.two_pow_pos k
    obtain ⟨a1, a2, a3, a4⟩ := ih base (by omega) _ rfl
    obtain ⟨b1, b2, b3, b4⟩ := ih (base + 2 ^ k) (by omega) _ rfl
    simp only [subtree, treeNode]
    split_ifs with hc
    · refine ⟨b1, by omega, by omega, fun j h1 h2 => ?_⟩
      by_cases hj : j.val < base + 2 ^ k
      · have := (a4 j h1 hj).1
        exact ⟨by omega, fun _ => by omega⟩
      · exact b4 j (by omega) (by omega)
    · refine ⟨a1, by omega, by omega, fun j h1 h2 => ?_⟩
      by_cases hj : j.val < base + 2 ^ k
      · exact a4 j h1 hj
      · have := (b4 j (by omega) (by omega)).1
        refine ⟨by omega, fun hlt => ?_⟩
        have : j.val < (subtree d k base).2.val := hlt
        omega

end Sys2Proof.Machine
end

