-- ==== Sys2Proof/Machine/Adapters.lean ====
section
/-! DEFINITION. The boundary adapters as a host (45_abort.md R97, R98, R99; R119, R128): which commands such a host
issues, and when it may. The core's step does not depend on this file. -/

namespace Sys2Proof.Machine

/-- One pixel of the decoded buffer: RGB, and alpha when the buffer has four bytes per pixel (R97). -/
structure SourcePixel where
  r : Byte
  g : Byte
  b : Byte
  a : Option Byte
  deriving DecidableEq, Repr

/-- A decoded image (R61): its dimensions, and its pixels in row-major order. -/
structure SourceImage where
  width : Dim
  height : Dim
  pixels : List SourcePixel
  deriving DecidableEq, Repr

/-- What the adapters found (R97, R98, R99). -/
inductive HostCase where
  /-- The argument count is wrong (R99). -/
  | usage
  /-- The input could not be read or parsed (R97). -/
  | loadFailure
  /-- A decoded image, and whether the sink can be opened and written (R98). -/
  | image (img : SourceImage) (sinkOpens : Bool)
  deriving DecidableEq, Repr

/-- A pixel as a command: `QPIX` with its alpha, or the pseudo-command `QRGB` (R59, R97). -/
def pixelCommand (px : SourcePixel) : Instr := .qpix px.r px.g px.b (px.a.getD 0xFF)

/-- The commands of a host, in order, as far as the core accepts them (R97, R98, R99, R128). -/
def hostCommands : HostCase → List Instr
  | .usage => [.abortUsage]
  | .loadFailure => [.abortLoad]
  | .image img sinkOpens =>
    .dim img.width img.height :: img.pixels.map pixelCommand ++
      [.pack, if sinkOpens then .emit else .abortWrite]

/-- The next command of a host that has issued `issued` commands and reads these ports: it presents a word only when
`cmd_ready` (R119), so it stops when the run has ended. -/
def nextHostCommand (c : HostCase) (issued : Nat) (p : Ports) : Option Instr :=
  if p.cmdReady then (hostCommands c)[issued]? else none

/-- The host's check of a finished run (R95): `COUNT = WIDTH * HEIGHT / 2`, and it received `COUNT` bytes. -/
def hostVerifies (s : State) : Bool :=
  s.count.toNat == s.width.toNat * s.height.toNat / 2 && s.out.length == s.count.toNat

end Sys2Proof.Machine
end

