-- ==== Sys2Proof/Tests/Slice0.lean ====
section
/-! SUPPORT. Tests, with their expected results from spec/95_test_vectors.md, and for every statement that has
hypotheses a witness: a concrete state and operands that meet them. -/

namespace Sys2Proof.Tests

open Sys2Proof.Machine Sys2Proof.Safety

/-! ## Helpers -/

/-- The outcome is a next state that passes a check. -/
def answers (o : Host.Outcome State Fault Refusal) (check : State → Bool) : Bool :=
  match o with
  | .next t => check t
  | .fault _ | .refused _ => false

/-- The outcome is this fault. -/
def faults (o : Host.Outcome State Fault Refusal) (f : Fault) : Bool :=
  match o with
  | .fault g => g == f
  | .next _ | .refused _ => false

theorem next_of_answers {o : Host.Outcome State Fault Refusal} {P : State → Prop} [∀ t, Decidable (P t)]
    (h : answers o (fun t => decide (P t)) = true) : NextSatisfies o P := by
  cases o with
  | next t => exact ⟨t, rfl, by simpa [answers] using h⟩
  | fault _ | refused _ => simp [answers] at h

theorem fault_of_faults {o : Host.Outcome State Fault Refusal} {f : Fault} (h : faults o f = true) : o = .fault f := by
  cases o <;> simp [faults] at h ⊢
  exact h

/-- A memory that holds these bytes from address 0 on. -/
def cells (bytes : List Byte) : Mem := bytes.zipIdx.map fun p => (p.2, p.1)

/-- An 8x1 image in a phase, with the slots given filled. -/
def row8 (phase : Phase) (slots : List Byte) : State :=
  { State.reset with width := 8, height := 1, phase := phase, cur := BitVec.ofNat 32 slots.length, idx := cells slots }

/-- The same, with one byte in each plane. -/
def packed8 (phase : Phase) (slots : List Byte) (b0 b1 b2 b3 : Byte) : State :=
  (row8 phase slots).setPln #v[cells [b0], cells [b1], cells [b2], cells [b3]]

/-- The slots of the source's concrete scenario (S1). -/
def scenario : List Byte := [0, 15, 0, 15, 0, 15, 0, 15]

/-- The state after the scenario's `EMIT` (P1), with a reset value in the place of `IDXOUT`. -/
def finished8 : State :=
  ((packed8 .done scenario 0x55 0x55 0x55 0x55).setOut [0x55, 0x55, 0x55, 0x55]).setCount 4

/-- The state after a trap in `IDLE`. -/
def trapped0 (c : Cause) : State := (State.reset.setErr c).setPhase .halt

/-- The host presents a word next. -/
def presents (s : State) (w : Cmd) : State := s.setHost [.command w]

/-! ## Well-formedness: an ill-formed command for each check (R55, R57, R59) -/

theorem test_wf_dim : (Written.dim 65535 65535).wellFormed = true ∧ (Written.dim 65536 1).wellFormed = false ∧
    (Written.dim 8 65536).wellFormed = false := by decide

theorem test_wf_qpix : (Written.qpix 255 255 255 255).wellFormed = true ∧
    (Written.qpix 256 0 0 0).wellFormed = false ∧ (Written.qpix 0 256 0 0).wellFormed = false ∧
    (Written.qpix 0 0 256 0).wellFormed = false ∧ (Written.qpix 0 0 0 256).wellFormed = false := by decide

theorem test_wf_qrgb : (Written.qrgb 255 255 255).wellFormed = true ∧ (Written.qrgb 256 0 0).wellFormed = false ∧
    (Written.qrgb 0 256 0).wellFormed = false ∧ (Written.qrgb 0 0 256).wellFormed = false := by decide

theorem test_wf_ldix_rdix : (Written.ldix 255).wellFormed = true ∧ (Written.ldix 256).wellFormed = false ∧
    (Written.rdix 4294967295).wellFormed = true ∧ (Written.rdix 4294967296).wellFormed = false := by decide

theorem test_wf_abort : ∀ code < 9, (Written.abort code).wellFormed = decide (code = 1 ∨ code = 2 ∨ code = 5) := by
  decide

theorem test_ill_formed_refused : assemble (.dim 65536 1) = .error .operandRange ∧
    assemble (.ldix 256) = .error .operandRange ∧ assemble (.abort 3) = .error .operandRange := by decide

/-! ## Decoding: words written out bit by bit (R54, R56, R59; V11) -/

theorem test_decode_dim : decode 0b0000000100000000000010000000000000000001 = .ok (.dim 8 1) ∧
    decode 0x01FFFFFFFF = .ok (.dim 65535 65535) ∧ decode 0x01014000C8 = .ok (.dim 320 200) := by decide

theorem test_decode_qpix : decode 0b0000001000010010001101000101011001111000 = .ok (.qpix 0x12 0x34 0x56 0x78) ∧
    decode 0x0280808000 = .ok (.qpix 128 128 128 0) := by decide

theorem test_decode_ldix : decode 0b0000001100000000000000000000000000011111 = .ok (.ldix 0x1F) ∧
    decode 0x0300000100 = .error .ldixHighBits ∧ decode 0x03FF000000 = .error .ldixHighBits := by decide

theorem test_decode_rdix : decode 0b0000010000000000000000000000000000000111 = .ok (.rdix 7) ∧
    decode 0x04FFFFFFFF = .ok (.rdix 4294967295) := by decide

theorem test_decode_pack : decode 0b0000010100000000000000000000000000000000 = .ok .pack ∧
    decode 0x0500000001 = .error .packArgument := by decide

theorem test_decode_unpk : decode 0b0000011000000000000000000000000000000000 = .ok .unpk ∧
    decode 0x0680000000 = .error .unpkArgument := by decide

theorem test_decode_emit : decode 0b0000011100000000000000000000000000000000 = .ok .emit ∧
    decode 0x0700000100 = .error .emitArgument := by decide

theorem test_decode_abort : decode 0b0000100000000000000000000000000000000001 = .ok .abortUsage ∧
    decode 0b0000100000000000000000000000000000000010 = .ok .abortLoad ∧
    decode 0b0000100000000000000000000000000000000101 = .ok .abortWrite := by decide

theorem test_decode_abort_illegal :
    ([0x0800000000, 0x0800000003, 0x0800000004, 0x0800000006, 0x0800000007] : List Cmd).map decode =
      List.replicate 5 (.error .abortCode) ∧
    ([0x0800000009, 0x0880000001] : List Cmd).map decode = List.replicate 2 (.error .abortHighBits) := by decide

theorem test_decode_no_opcode :
    ([0x0000000000, 0x0900000000, 0x1000000000, 0x8000000000, 0xFF00000000, 0xFFFFFFFFFF] : List Cmd).map decode =
      List.replicate 6 (.error .noSuchOpcode) := by decide

theorem test_encode : [Instr.dim 8 1, .qpix 1 2 3 0xFF, .ldix 0x1F, .rdix 31, .pack, .unpk, .emit, .abortUsage,
    .abortLoad, .abortWrite].map encode = [0x0100080001, 0x02010203FF, 0x030000001F, 0x040000001F, 0x0500000000,
    0x0600000000, 0x0700000000, 0x0800000001, 0x0800000002, 0x0800000005] := by decide

theorem test_table_word : decodeTableWord 40 0x0100080001 = some (.dim 8 1) ∧
    decodeTableWord 40 0x0000000000 = none := by decide

/-! ## One step of each instruction -/

/-- V7: `DIM 512, 512` is accepted at the capacity. -/
theorem test_dim_at_capacity : answers (exec (.dim 512 512) State.reset)
    (fun t => t.width == 512 && t.height == 512 && t.cur == 0 && t.phase == .fill) = true := by decide

/-- V7: `DIM 321, 65535` reports the width, not the capacity; `DIM 65528, 65535` does not wrap. -/
theorem test_dim_traps :
    answers (exec (.dim 321 65535) State.reset) (fun t => t.err == .constraintViolation && t.width == 0) = true ∧
    answers (exec (.dim 65528 65535) State.reset) (fun t => t.err == .allocationFailure && exitPort t == 1) = true := by
  decide

/-- R73's worked example. -/
theorem test_qpix_white : answers (exec (.qpix 255 255 255 255) (row8 .fill [0]))
    (fun t => t.idx.read 1 == some 15 && t.idxout == 15 && t.cur == 2 && t.phase == .fill) = true := by decide

/-- V12: the ninth `QPIX` of an 8x1 image is not admitted, and `IDXOUT` keeps the eighth result. -/
theorem test_qpix_ninth : answers (exec (.qpix 0 0 0 0) ((row8 .ready scenario).setIdxout 15))
    (fun t => t.phase == .halt && t.err == .illegalCommand && t.cur == 8 && t.idxout == 15) = true := by decide

/-- R78's worked example: the last slot takes all 8 bits. -/
theorem test_ldix_last : answers (exec (.ldix 0x1F) (row8 .fill [0, 0, 0, 0, 0, 0, 0]))
    (fun t => t.idx.read 7 == some 0x1F && t.cur == 8 && t.phase == .ready && t.idxout == 0) = true := by decide

/-- V8: `LDIX` out of `FILL`. -/
theorem test_ldix_ready : answers (exec (.ldix 1) (row8 .ready scenario))
    (fun t => t.err == .illegalCommand && t.cur == 8) = true := by decide

/-- V8: all 8 bits of the slot. -/
theorem test_rdix_reads : answers (exec (.rdix 7) (row8 .ready [0, 0, 0, 0, 0, 0, 0, 0xFF]))
    (fun t => t.idxout == 0xFF && t.phase == .ready) = true := by decide

/-- V8: a slot not written in this run. -/
theorem test_rdix_traps :
    answers (exec (.rdix 8) (row8 .ready scenario)) (fun t => t.err == .illegalCommand) = true ∧
    answers (exec (.rdix 0) (row8 .fill [])) (fun t => t.err == .illegalCommand) = true ∧
    answers (exec (.rdix 0xFFFFFFFF) (row8 .ready scenario)) (fun t => t.err == .illegalCommand) = true := by decide

/-- V5, the last row: the mask, the bit order and the order of the planes. -/
theorem test_pack_masks : answers (exec .pack (row8 .ready [0x1F, 0x10, 0xF0, 0xFF, 0x80, 0x01, 0x0E, 0x07]))
    (fun t => (t.plane 0).read 0 == some 0x95 && (t.plane 1).read 0 == some 0x93 && (t.plane 2).read 0 == some 0x93 &&
      (t.plane 3).read 0 == some 0x92 && t.phase == .packed) = true := by decide

/-- The 16x1 image of V6, with a plane memory of one byte. -/
def tooWide : State :=
  let s := row8 .ready [0, 1, 2, 3, 4, 5, 6, 7, 8, 9, 10, 11, 12, 13, 14, 15]
  { s with width := 16, params := { s.params with plnCap := 1 } }

/-- P7. -/
theorem test_pack_too_wide : answers (exec .pack tooWide)
    (fun t => t.err == .allocationFailure && t.width == 16 && t.cur == 16 && exitPort t == 1) = true := by decide

/-- U7: no meaning for a width that breaks the alignment law; no run reaches this state. -/
theorem test_unaligned : faults (exec .pack { row8 .ready scenario with width := 4, height := 2 }) .widthNotAligned =
    true ∧ faults (exec .unpk { row8 .packed scenario with width := 4, height := 2 }) .widthNotAligned = true := by
  decide

/-- V9. -/
theorem test_unpk : answers (exec .unpk (packed8 .packed [0, 0, 0, 0, 0, 0, 0, 0xFF] 0x80 0x40 0x20 0x10))
    (fun t => t.idx == cells [1, 2, 4, 8, 0, 0, 0, 0] && t.phase == .packed) = true := by decide

/-- V9: `UNPK` before `PACK`. -/
theorem test_unpk_ready : answers (exec .unpk (row8 .ready scenario)) (fun t => t.err == .illegalCommand) = true := by
  decide

/-- V5: the planes come out in the order 0, 1, 2, 3. -/
theorem test_emit : answers (exec .emit (packed8 .packed scenario 0x11 0x22 0x44 0x88))
    (fun t => t.out == [0x11, 0x22, 0x44, 0x88] && t.count == 4 && t.phase == .done && exitPort t == 0) = true := by
  decide

/-- V9: in `DONE` there is no step. -/
theorem test_emit_twice : faults (exec .emit finished8) .noStep = true := by decide

/-- V10. -/
theorem test_abort_usage :
    answers (exec .abortUsage State.reset) (fun t => t.err == .usageError && exitPort t == 1) = true ∧
    answers (exec .abortUsage (packed8 .packed scenario 0x55 0x55 0x55 0x55)) (fun t => t.err == .illegalCommand) =
      true := by decide

/-- V10. -/
theorem test_abort_load :
    answers (exec .abortLoad State.reset) (fun t => t.err == .resourceLoadError && exitPort t == 1) = true ∧
    answers (exec .abortLoad (row8 .fill [])) (fun t => t.err == .illegalCommand) = true := by decide

/-- V10. -/
theorem test_abort_write :
    answers (exec .abortWrite (packed8 .packed scenario 0x55 0x55 0x55 0x55))
      (fun t => t.err == .outputWriteError && t.out == [] && t.count == 0) = true ∧
    answers (exec .abortWrite State.reset) (fun t => t.err == .illegalCommand) = true := by decide

/-! ## The quantizer -/

/-- V1 and V4, with the default palette. -/
theorem test_quant :
    [quant Palette.ega ⟨170, 170, 0⟩, quant Palette.ega ⟨42, 42, 42⟩, quant Palette.ega ⟨43, 43, 43⟩,
      quant Palette.ega ⟨255, 0, 0⟩, quant Palette.ega ⟨222, 173, 190⟩, quant Palette.ega ⟨0, 0, 40⟩,
      quant Palette.ega ⟨213, 213, 213⟩] = [6, 0, 8, 4, 7, 0, 15] := by decide

/-- V2: ties within the default palette, at level 1 and at the root of the tree. -/
theorem test_quant_ties :
    [quant Palette.ega ⟨0, 0, 85⟩, quant Palette.ega ⟨85, 85, 170⟩, quant Palette.ega ⟨255, 128, 0⟩] = [0, 8, 6] ∧
    [quantTree Palette.ega ⟨0, 0, 85⟩, quantTree Palette.ega ⟨85, 85, 170⟩, quantTree Palette.ega ⟨255, 128, 0⟩] =
      [0, 8, 6] := by decide

/-- `PAL_T2` of V3: grays but for three entries. -/
def palT2 : Palette := Vector.ofFn fun i =>
  if i = 2 then ⟨210, 20, 20⟩ else if i = 5 then ⟨200, 30, 20⟩ else if i = 11 then ⟨200, 20, 30⟩
  else ⟨BitVec.ofNat 8 (17 * i), BitVec.ofNat 8 (17 * i), BitVec.ofNat 8 (17 * i)⟩

/-- V3: a three-way tie goes to the lowest index. -/
theorem test_quant_three_way_tie : quant palT2 ⟨200, 20, 20⟩ = 2 ∧ quantTree palT2 ⟨200, 20, 20⟩ = 2 ∧
    unitDistance palT2 ⟨200, 20, 20⟩ 11 = 100 ∧ unitDistance palT2 ⟨200, 20, 20⟩ 0 = 40800 := by decide

/-- V1: the largest distance. -/
theorem test_distance : (List.finRange 16).map (unitDistance Palette.ega ⟨255, 255, 255⟩) =
    [195075, 137275, 137275, 79475, 137275, 79475, 101150, 21675, 86700, 57800, 57800, 28900, 57800, 28900, 28900,
      0] := by decide

/-! ## The machine's step, the host and the assembler -/

/-- A placed word is run by the very next step. -/
theorem test_fetch : answers (step (State.reset.withFetchWord 40 0x0100080001))
    (fun t => t.width == 8 && t.height == 1 && t.phase == .fill && t.host == []) = true := by decide

/-- V12: the all-zero word. -/
theorem test_step_illegal : answers (step (presents State.reset 0x0000000000))
    (fun t => t.phase == .halt && t.err == .illegalCommand && exitPort t == 1 && t.width == 0) = true := by decide

/-- V12: reset out of `HALT`. -/
theorem test_step_reset : answers (step ((trapped0 .usageError).setHost [.reset])) (fun t => t == State.reset) = true := by
  decide

theorem test_ports : ports finished8 = ⟨false, 4, 0, 8, 1, 8, 4, 0, 0⟩ := by decide

/-- R99, R97, R98: what the host issues. -/
theorem test_host_commands : hostCommands .usage = [.abortUsage] ∧ hostCommands .loadFailure = [.abortLoad] ∧
    hostCommands (.image ⟨8, 1, [⟨1, 2, 3, none⟩]⟩ false) = [.dim 8 1, .qpix 1 2 3 0xFF, .pack, .abortWrite] ∧
    nextHostCommand .usage 0 (ports State.reset) = some .abortUsage ∧
    nextHostCommand .usage 0 (ports finished8) = none ∧ hostVerifies finished8 = true := by decide

/-- R59: lines of the programs of spec/95_test_vectors.md. -/
theorem test_assemble_lines :
    assembleLine ['D', 'I', 'M', ' ', ' ', '8', ',', ' ', '1', ' ', ';', ' ', '0'] = .ok (some 0x0100080001) ∧
    assembleLine ['L', 'D', 'I', 'X', ' ', '0', 'x', '1', 'F'] = .ok (some 0x030000001F) ∧
    assembleLine ['Q', 'R', 'G', 'B', ' ', '0', ',', ' ', '0', ',', '8', '5'] = .ok (some 0x02000055FF) ∧
    assembleLine ['a', 'b', 'o', 'r', 't', ' ', 'W', 'r', 'i', 't', 'e'] = .ok (some 0x0800000005) ∧
    assembleLine [' ', ';', ' ', 'n'] = .ok none := by decide

theorem test_assemble_errors :
    assembleLine ['L', 'D', 'I', 'X', ' ', '2', '5', '6'] = .error .operandRange ∧
    assembleLine ['N', 'O', 'P'] = .error .unknownMnemonic ∧
    assembleLine ['D', 'I', 'M', ' ', '8'] = .error .operandCount ∧
    assembleLine ['R', 'D', 'I', 'X', ' ', '0', 'x', 'G'] = .error .badNumber := by decide

/-! ## Witnesses: for each statement of Certificates/Slice0/Obligations.lean that has hypotheses, a state and operands
that meet them, at the boundary values of every clause -/

/-- A state of every phase that a run of an 8x1 image passes through, and two traps. -/
def runStates : List State :=
  [State.reset, row8 .fill [], row8 .fill [0, 15, 0, 15, 0, 15, 0], row8 .ready scenario,
    packed8 .packed scenario 0x55 0x55 0x55 0x55, finished8, trapped0 .illegalCommand, trapped0 .usageError]

/-- `slot` for the scenario. -/
def slot (n : Nat) : Byte := (scenario[n]?).getD 0

/-- `byte` for planes 0x11, 0x22, 0x44, 0x88. -/
def planeByte (p : Fin 4) (_ : Nat) : Byte := #v[0x11, 0x22, 0x44, 0x88][p]

/-- `DecodedWordEncodesToItself`, `StepRunsTheDecodedCommand`. -/
theorem witness_decoded_word : decode 0x0100080001 = .ok (.dim 8 1) ∧
    (State.reset.withFetchWord 40 0x0100080001).host = .command 0x0100080001 :: [] := by decide

/-- `OpcodeMapDecidesTheCommand`: the rows, and a word of each. -/
theorem witness_opcode_rows : opcodeRows.length = 10 ∧ ∀ row ∈ opcodeRows, row.covers row.pattern = true := by decide

/-- `IllegalWordsRaiseIllegalCommand`: a word of every clause of R57's list, at its ends. -/
theorem witness_illegal_words : (presents State.reset 0).phase.live = true ∧
    ([0x0000000000, 0x00FFFFFFFF, 0x0900000000, 0xFFFFFFFFFF, 0x0300000100, 0x03FFFFFFFF, 0x0500000001,
      0x05FFFFFFFF, 0x0600000001, 0x06FFFFFFFF, 0x0700000001, 0x07FFFFFFFF, 0x0800000008, 0x08FFFFFFF9,
      0x0800000000, 0x0800000003, 0x0800000004, 0x0800000006, 0x0800000007] : List Cmd).all (fun w =>
        decide (IllegalByList w)) = true := by decide

/-- The words beside them are legal. -/
theorem witness_legal_words :
    ([0x0100000000, 0x02FFFFFFFF, 0x0300000000, 0x03000000FF, 0x04FFFFFFFF, 0x0500000000, 0x0600000000,
      0x0700000000, 0x0800000001, 0x0800000002, 0x0800000005] : List Cmd).all (fun w =>
        decide (¬ IllegalByList w)) = true := by decide

/-- `StepWaitsForTheHost`. -/
theorem witness_no_action : State.reset.host = [] ∧ finished8.host = [] := by decide

/-- `AssemblyNeverTruncates`: the last operand that fits, and what it decodes to. -/
theorem witness_written : assemble (.dim 65535 65535) = .ok 0x01FFFFFFFF ∧
    decode 0x01FFFFFFFF = .ok (.dim 65535 65535) ∧ (Instr.dim 65535 65535).written = .dim 65535 65535 ∧
    assemble (.dim 65536 65535) = .error .operandRange ∧ assemble (.abort 3) = .error .operandRange := by decide

/-- `ResetInputStartsANewRun`: asserting `rst` in every phase, and the way out of the final ones. -/
theorem witness_reset_input : (∀ s ∈ runStates, (s.setHost [.reset]).host = .reset :: []) ∧
    (finished8.setHost [.reset]).phase = .done ∧ ((trapped0 .usageError).setHost [.reset]).phase = .halt ∧
    answers (step (finished8.setHost [.reset])) (fun t => t.phase != .done) = true ∧
    answers (step ((trapped0 .usageError).setHost [.reset])) (fun t => t.phase != .halt) = true := by decide

/-- `FinalPhasesHaveNoStep`: a word presented, and a step that there is. -/
theorem witness_final : (presents finished8 0x0100080001).phase = .done ∧
    (presents (trapped0 .usageError) 0x0000000000).phase = .halt ∧
    answers (step finished8) (fun t => t == finished8) = true ∧
    answers (step ((trapped0 .usageError).setHost [.reset])) (fun t => t.phase == .idle) = true := by decide

/-- `DimAcceptsAValidImage`: the smallest image, and one at the capacity. -/
theorem witness_dim_accepts : State.reset.phase = .idle ∧ (8#16).toNat % 8 = 0 ∧ 8#16 ≠ 0#16 ∧ 1#16 ≠ 0#16 ∧
    (8#16).toNat * (1#16).toNat ≤ State.reset.params.idxCap ∧
    (512#16).toNat * (512#16).toNat = State.reset.params.idxCap ∧ (512#16).toNat % 8 = 0 := by decide

/-- `DimRaisesInOrder`: each bad dimension alone, and one over the capacity alone. -/
theorem witness_dim_raises : State.reset.phase = .idle ∧ (7#16).toNat % 8 ≠ 0 ∧ (65535#16).toNat % 8 ≠ 0 ∧
    (520#16).toNat % 8 = 0 ∧ State.reset.params.idxCap < (520#16).toNat * (512#16).toNat ∧
    State.reset.params.idxCap < (65528#16).toNat * (65535#16).toNat := by decide

/-- `DimPromiseHoldsUntilReset`: an accepted `DIM`, and a later step. -/
theorem witness_dim_promise :
    NextSatisfies (exec (.dim 8 1) State.reset) (fun t => t.phase ≠ .halt) ∧
    (presents (row8 .fill []) 0x0300000005).phase ≠ .idle ∧ ImagePromise (presents (row8 .fill []) 0x0300000005) ∧
    NextSatisfies (step (presents (row8 .fill []) 0x0300000005)) (fun t => t.cur = 1) :=
  ⟨next_of_answers (by decide), by decide, by decide, next_of_answers (by decide)⟩

/-- `PaletteColoursQuantizeToThemselves`, and R9's constraints on the defaults. -/
theorem witness_palette : Palette.ega.Distinct ∧ palT2.Distinct ∧ Palette.ega.BlackWhite ∧ Params.default.Valid := by
  decide

/-- `QpixFillsTheNextSlot`, `LdixFillsTheNextSlot`: the first slot and the last. -/
theorem witness_fill : ∀ s ∈ [row8 .fill [], row8 .fill [0, 15, 0, 15, 0, 15, 0]],
    s.phase = .fill ∧ s.cur.toNat < s.npix ∧ s.npix ≤ s.params.idxCap := by decide

/-- `RdixShowsAWrittenSlot`: the first and the last written slot, in each phase. -/
theorem witness_rdix_written :
    ∀ s ∈ [row8 .fill [9], row8 .ready scenario, packed8 .packed scenario 0x55 0x55 0x55 0x55],
      (s.phase = .fill ∨ s.phase = .ready ∨ s.phase = .packed) ∧
      ∀ n ∈ [0, s.cur.toNat - 1], n < s.cur.toNat ∧ n < s.params.idxCap ∧ (s.idx.read n).isSome := by decide

/-- `RdixRaisesOnAnUnwrittenSlot`: the first unwritten slot, and the last number. -/
theorem witness_rdix_unwritten : (row8 .fill []).phase = .fill ∧ (row8 .fill []).cur.toNat ≤ (0#32).toNat ∧
    (row8 .ready scenario).phase = .ready ∧ (row8 .ready scenario).cur.toNat ≤ (8#32).toNat ∧
    (row8 .ready scenario).cur.toNat ≤ (0xFFFFFFFF#32).toNat := by decide

/-- `PackBuildsThePlanes`, `PackedBitsFollowThePlaneLaw`, `PackerRoundTrips` (1). -/
theorem witness_pack : (row8 .ready scenario).phase = .ready ∧ (row8 .ready scenario).width.toNat % 8 = 0 ∧
    (row8 .ready scenario).ps ≤ (row8 .ready scenario).params.plnCap ∧
    (row8 .ready scenario).npix ≤ (row8 .ready scenario).params.idxCap ∧ (row8 .ready scenario).npix = 8 ∧
    ∀ n < (row8 .ready scenario).npix, (row8 .ready scenario).idx.read n = some (slot n) := by decide

/-- `PackRaisesAllocationFailure`. -/
theorem witness_pack_raises : tooWide.phase = .ready ∧ tooWide.params.plnCap < tooWide.ps := by decide

/-- `AlignedWidthOwnsEachBitOnce`. -/
theorem witness_aligned : 0 < 8 ∧ 8 % 8 = 0 ∧ 0 < 320 ∧ 320 % 8 = 0 := by decide

/-- `UnpkRebuildsTheIndices`, `EmitWritesThePlanesInOrder`. -/
theorem witness_planes :
    (packed8 .packed scenario 0x11 0x22 0x44 0x88).phase = .packed ∧
    (packed8 .packed scenario 0x11 0x22 0x44 0x88).width.toNat % 8 = 0 ∧
    (packed8 .packed scenario 0x11 0x22 0x44 0x88).ps = 1 ∧
    1 ≤ (packed8 .packed scenario 0x11 0x22 0x44 0x88).params.plnCap ∧
    (packed8 .packed scenario 0x11 0x22 0x44 0x88).npix ≤ (packed8 .packed scenario 0x11 0x22 0x44 0x88).params.idxCap ∧
    ∀ p : Fin 4, ∀ o < 1, ((packed8 .packed scenario 0x11 0x22 0x44 0x88).plane p).read o = some (planeByte p o) := by
  decide

/-- `PackerRoundTrips` (3): two IndexBuffers that agree in the low 4 bits of every slot. -/
theorem witness_high_bits :
    NextSatisfies (exec .pack (row8 .ready scenario)) (fun t => t.phase = .packed) ∧
    NextSatisfies (exec .pack ((row8 .ready scenario).setIdx (cells [0xF0, 0x1F, 0, 0xFF, 0x10, 15, 0x20, 0x3F])))
      (fun t => t.phase = .packed) ∧
    ∀ n < 8, ((scenario[n]?).getD 0) &&& 0x0F#8 =
      ((cells [0xF0, 0x1F, 0, 0xFF, 0x10, 15, 0x20, 0x3F]).read n).getD 0 &&& 0x0F#8 :=
  ⟨next_of_answers (by decide), next_of_answers (by decide), by decide⟩

/-- `SecondUnpkChangesNothing`. -/
theorem witness_unpk : NextSatisfies (exec .unpk (packed8 .packed scenario 0x11 0x22 0x44 0x88)) fun t =>
    t.phase = .packed := next_of_answers (by decide)

/-- The invariants hold in a state of every phase: `EveryStepKeepsRunInvariant`, `EveryStepKeepsMemoryInvariant`,
`NoMemoryAccessFaults`, `LivePhasesAcceptEveryWord`, `NibbleSlotsAreKept`. -/
theorem witness_invariants : (∀ s ∈ runStates, RunInv s) ∧ (∀ s ∈ runStates, MemInv s) ∧
    ∀ s ∈ runStates, NibbleSlots s := ⟨by decide, by decide, by decide⟩

/-- The phases of those states: all six. -/
theorem witness_phases : runStates.map (·.phase) = [.idle, .fill, .fill, .ready, .packed, .done, .halt, .halt] := by
  decide

/-- A step from each of them, by a command, by the host's reset and by waiting. -/
theorem witness_steps :
    NextSatisfies (step (presents (row8 .fill [0, 15, 0, 15, 0, 15, 0]) 0x030000000F)) (fun t => t.phase = .ready) ∧
    NextSatisfies (step (presents (row8 .ready scenario) 0x0500000000)) (fun t => t.phase = .packed) ∧
    NextSatisfies (step (presents State.reset 0x0800000001)) (fun t => t.phase = .halt) ∧
    NextSatisfies (step (trapped0 .usageError)) (fun t => t.phase = .halt) ∧
    NextSatisfies (step (finished8.setHost [.reset])) (fun t => t.phase = .idle) :=
  ⟨next_of_answers (by decide), next_of_answers (by decide), next_of_answers (by decide), next_of_answers (by decide),
    next_of_answers (by decide)⟩

/-- `NibbleSlotsAreKept`: an `LDIX` of the largest index is allowed by its premise, and the slots of the run are
filled before and after; a larger value breaks the invariant. -/
theorem witness_nibble : decode 0x030000000F = .ok (.ldix 15) ∧ (15#8).toNat < 16 ∧
    NibbleSlots (presents (row8 .fill [0, 15, 0, 15, 0, 15, 0]) 0x030000000F) ∧ NibbleSlots (row8 .ready scenario) ∧
    ¬ NibbleSlots (row8 .fill [0, 16]) := by decide

/-- `NoMemoryAccessFaults`: a step that faults where the invariants hold. -/
theorem witness_fault : RunInv (presents finished8 0x0100080001) ∧ MemInv (presents finished8 0x0100080001) ∧
    step (presents finished8 0x0100080001) = .fault .noStep :=
  ⟨by decide, by decide, fault_of_faults (by decide)⟩

/-- `OutputHoldsThePlanesInDone`, `RunsEndInSuccessOrFailure`: the states of a run; and other bytes are no success. -/
theorem witness_output_inv : (∀ s ∈ runStates, OutputInv s) ∧ Succeeded finished8 ∧
    ¬ Succeeded (finished8.setOut [0x55, 0x55, 0x55, 0x54]) := ⟨by decide, by decide, by decide⟩

/-- The step into `DONE`. -/
theorem witness_output_step : RunInv (presents (packed8 .packed scenario 0x11 0x22 0x44 0x88) 0x0700000000) ∧
    NextSatisfies (step (presents (packed8 .packed scenario 0x11 0x22 0x44 0x88) 0x0700000000)) (fun t =>
      t.phase = .done) := ⟨by decide, next_of_answers (by decide)⟩

/-- `SizeLaw`, `OutputIsCompleteOrEmpty`, `RunsEndInSuccessOrFailure`: the ends of a run. -/
theorem witness_ends : RunInv finished8 ∧ finished8.phase = .done ∧ finished8.params.exitNz ≠ 0 ∧
    RunInv (trapped0 .usageError) ∧ (trapped0 .usageError).phase = .halt ∧
    (trapped0 .usageError).params.exitNz ≠ 0 ∧ RunInv State.reset ∧ State.reset.phase.live = true :=
  ⟨by decide, by decide, by decide, by decide, by decide, by decide, by decide, by decide⟩

/-- `OutputIsCompleteOrEmpty`: an `EMIT` that changes `OUT`, and a trap in a live phase. -/
theorem witness_output :
    NextSatisfies (exec .emit (packed8 .packed scenario 0x55 0x55 0x55 0x55)) (fun t => t.out ≠ []) ∧
    NextSatisfies (exec .abortWrite (packed8 .packed scenario 0x55 0x55 0x55 0x55)) (fun t => t.phase = .halt) :=
  ⟨next_of_answers (by decide), next_of_answers (by decide)⟩

/-- `AbortRaisesItsCause`. -/
theorem witness_abort : State.reset.phase = .idle ∧ (packed8 .packed scenario 0x55 0x55 0x55 0x55).phase = .packed := by
  decide

/-- `AdmissionTable`: an entry of each kind, and an illegal word in a live and in a final phase. -/
theorem witness_admission : admission .pack .ready = .yes ∧ admission .pack .fill = .trap ∧
    admission .pack .halt = .noStep ∧ admission .abortUsage .idle = .yes ∧ admission .abortLoad .idle = .yes ∧
    admission .abortWrite .packed = .yes ∧ decode 0x0000000000 = .error .noSuchOpcode ∧
    (presents State.reset 0).phase.live = true ∧ (presents finished8 0).phase.live = false := by decide

/-- `AdmissionTable` (the `yes` entries): an admitted command that raises `IllegalCommand`. -/
theorem witness_admitted_rdix : admission (.rdix 8) .ready = .yes ∧
    NextSatisfies (exec (.rdix 8) (row8 .ready scenario)) (fun t => t.phase = .halt ∧ t.err = .illegalCommand) :=
  ⟨by decide, next_of_answers (by decide)⟩

/-- `TrapsArePrecise`, `CausesComeFromTheirCommands`: a command that ends in `HALT`, for each cause. -/
theorem witness_causes :
    NextSatisfies (exec .abortUsage State.reset) (fun t => t.phase = .halt ∧ t.err = .usageError) ∧
    NextSatisfies (exec .abortLoad State.reset) (fun t => t.phase = .halt ∧ t.err = .resourceLoadError) ∧
    NextSatisfies (exec (.dim 4 2) State.reset) (fun t => t.phase = .halt ∧ t.err = .constraintViolation) ∧
    NextSatisfies (exec (.dim 520 512) State.reset) (fun t => t.phase = .halt ∧ t.err = .allocationFailure) ∧
    NextSatisfies (exec .pack tooWide) (fun t => t.phase = .halt ∧ t.err = .allocationFailure) ∧
    NextSatisfies (exec .abortWrite (packed8 .packed scenario 0x55 0x55 0x55 0x55))
      (fun t => t.phase = .halt ∧ t.err = .outputWriteError) ∧
    NextSatisfies (exec .pack State.reset) (fun t => t.phase = .halt ∧ t.err = .illegalCommand) :=
  ⟨next_of_answers (by decide), next_of_answers (by decide), next_of_answers (by decide), next_of_answers (by decide),
    next_of_answers (by decide), next_of_answers (by decide), next_of_answers (by decide)⟩

/-- `WhatNeverRaises`, `OnlyListedCommandsWrite`, `PhaseMovesOnlyAsListed`: a next state of each of the commands. -/
theorem witness_next_states :
    NextSatisfies (exec (.dim 8 1) State.reset) (fun t => t.width ≠ 0 ∧ t.height ≠ 0) ∧
    NextSatisfies (exec (.qpix 255 255 255 0) (row8 .fill []))
      (fun t => t.cur ≠ 0 ∧ t.idxout ≠ 0 ∧ t.idx.read 0 ≠ none) ∧
    NextSatisfies (exec (.ldix 1) (row8 .fill [])) (fun t => t.cur ≠ 0 ∧ t.idx.read 0 ≠ none) ∧
    NextSatisfies (exec (.rdix 1) (row8 .ready scenario)) (fun t => t.idxout ≠ 0 ∧ t.phase = .ready) ∧
    NextSatisfies (exec .pack (row8 .ready scenario)) (fun t => (t.plane 0).read 0 ≠ none ∧ t.phase = .packed) ∧
    NextSatisfies (exec .unpk (packed8 .packed scenario 0x11 0x22 0x44 0x88)) (fun t => t.idx.read 0 ≠ some 0) ∧
    NextSatisfies (exec .emit (packed8 .packed scenario 0x11 0x22 0x44 0x88)) (fun t => t.count ≠ 0 ∧ t.out ≠ []) ∧
    NextSatisfies (exec .abortUsage State.reset) (fun t => t.err ≠ .none) :=
  ⟨next_of_answers (by decide), next_of_answers (by decide), next_of_answers (by decide), next_of_answers (by decide),
    next_of_answers (by decide), next_of_answers (by decide), next_of_answers (by decide), next_of_answers (by decide)⟩

/-- `PhaseMovesOnlyAsListed`: the moves that are no command's. -/
theorem witness_moves :
    NextSatisfies (step (finished8.setHost [.reset])) (fun t => t.phase = .idle) ∧
    NextSatisfies (step finished8) (fun t => t.phase = .done) ∧
    NextSatisfies (step (presents State.reset 0x0000000000)) (fun t => t.phase = .halt) :=
  ⟨next_of_answers (by decide), next_of_answers (by decide), next_of_answers (by decide)⟩

/-- `ExitPortIsTheExitStatus`: a state of every case. -/
theorem witness_exit : finished8.phase ≠ .halt ∧
    ∀ c ∈ [Cause.usageError, .constraintViolation, .illegalCommand, .resourceLoadError, .allocationFailure,
      .outputWriteError], (trapped0 c).phase = .halt ∧ (trapped0 c).err = c := by decide

end Sys2Proof.Tests
end

/-! ## Scope: the parameters of a run and its two ends (00_scope.md) -/

namespace Sys2Proof.Proofs.Scope

open Sys2Proof.Machine Sys2Proof.Safety

variable {s t : State}

/-! ### No step writes the parameters -/

theorem raise_keeps_params {c : Cause} (h : raise c s = .next t) : t.params = s.params := by
  obtain rfl := raise_next.mp h
  simp

theorem unpackBelow_keeps_params {k : Nat} (h : unpackBelow s k = .ok t) : t.params = s.params := by
  rw [(unpackBelow_ok h).1]
  simp

theorem exec_keeps_params {i : Instr} (h : exec i s = .next t) : t.params = s.params := by
  obtain ⟨-, trap | dim | qpix | ldix | rdix | pack | unpk | emit⟩ := exec_next h
  · obtain ⟨c, -, hraise⟩ := trap
    exact raise_keeps_params hraise
  · obtain ⟨w, h, -, -, -, -, -, -, rfl⟩ := dim
    simp
  · obtain ⟨r, g, b, a, -, -, -, rfl⟩ := qpix
    simp
  · obtain ⟨v, -, -, -, rfl⟩ := ldix
    simp
  · obtain ⟨n, v, -, -, -, -, -, rfl⟩ := rdix
    simp
  · obtain ⟨-, -, -, -, z, u, hzero, hpack, rfl⟩ := pack
    simpa using params_of_frame (pack_frame hzero hpack)
  · obtain ⟨-, -, -, hunpack⟩ := unpk
    exact unpackBelow_keeps_params hunpack
  · obtain ⟨-, -, bytes, -, rfl⟩ := emit
    simp

theorem step_keeps_params (h : step s = .next t) : t.params = s.params := by
  obtain ⟨-, rfl⟩ | ⟨rest, -, rfl⟩ | ⟨w, rest, i, -, -, hexec⟩ | ⟨w, rest, e, -, -, -, hraise⟩ := step_next h
  · rfl
  · simp
  · simpa using exec_keeps_params hexec
  · simpa using raise_keeps_params hraise

/-- Settles O47: waiting, the reset input, every command and the trap of an illegal word keep `State.params`. -/
theorem noStepChangesThePalette : Obligations.NoStepChangesThePalette := by
  unfold Obligations.NoStepChangesThePalette
  exact fun _ _ => step_keeps_params

/-! ### The exit status -/

theorem exitPort_of_not_halt (h : s.phase ≠ .halt) : exitPort s = 0 := if_neg h

theorem exitPort_of_halt (h : s.phase = .halt) : exitPort s = s.err.exitStatus s.params.exitNz := if_pos h

/-- With `EXIT_NZ` not 0 (R9), every cause of a trap has an exit status that is not 0 (R17). -/
theorem exitStatus_ne_zero {c : Cause} {exitNz : Byte} (hc : c ≠ .none) (hnz : exitNz ≠ 0) :
    c.exitStatus exitNz ≠ 0 := by
  cases c with
  | none => exact absurd rfl hc
  | usageError | constraintViolation | illegalCommand => simp [Cause.exitStatus]
  | resourceLoadError | allocationFailure | outputWriteError => exact hnz

/-! ### The two ends of a run (R137) -/

/-- Success and failure end a run in different phases. -/
theorem succeeded_not_failed (h : Succeeded s) : ¬ Failed s := by
  rintro ⟨hhalt, -⟩
  obtain ⟨hdone, -⟩ := h
  simp [hdone] at hhalt

theorem not_ended_of_live (h : s.phase.live = true) : ¬ Succeeded s ∧ ¬ Failed s := by
  constructor
  · rintro ⟨hdone, -⟩
    simp [hdone, Phase.live] at h
  · rintro ⟨hhalt, -⟩
    simp [hhalt, Phase.live] at h

theorem succeeded_of_done (hr : RunInv s) (ho : OutputInv s) (hdone : s.phase = .done) : Succeeded s := by
  obtain ⟨-, -, -, -, -, hcount, -, herr⟩ := hr
  have hnot : s.phase ≠ .halt := by simp [hdone]
  exact ⟨hdone, not_not.mp (mt herr.mp hnot), exitPort_of_not_halt hnot, ho hdone, (hcount hdone).2⟩

theorem failed_of_halt (hr : RunInv s) (hnz : s.params.exitNz ≠ 0) (hhalt : s.phase = .halt) : Failed s := by
  obtain ⟨-, -, -, -, -, -, hout, herr⟩ := hr
  have hcause : s.err ≠ .none := herr.mpr hhalt
  have hexit : exitPort s ≠ 0 := exitPort_of_halt hhalt ▸ exitStatus_ne_zero hcause hnz
  exact ⟨hhalt, hcause, hexit, (hout (by simp [hhalt])).1⟩

/-- Settles O49: `DONE` is a success by the run's and the output's invariants, `HALT` a failure by item 7 of R33 and the
exit status of every cause, and the two ends exclude each other by their phase. -/
theorem runsEndInSuccessOrFailure : Obligations.RunsEndInSuccessOrFailure := by
  unfold Obligations.RunsEndInSuccessOrFailure
  intro s hr ho hnz
  refine ⟨fun hdone => ?_, fun hhalt => ?_, not_ended_of_live⟩
  · have hs := succeeded_of_done hr ho hdone
    exact ⟨hs, succeeded_not_failed hs⟩
  · have hf := failed_of_halt hr hnz hhalt
    exact ⟨hf, fun hs => succeeded_not_failed hs hf⟩

end Sys2Proof.Proofs.Scope

/-! ## The core's state: what a command can do, the invariants, admission and faults (10_state.md) -/

namespace Sys2Proof.Proofs.CoreState

open Sys2Proof.Machine Sys2Proof.Safety

variable {s t : State} {i : Instr}

/-! ### Admission (R30) -/

/-- The phases that a command's row of the admission table marks `yes`. -/
def admittedIn : Instr → List Phase
  | .dim _ _ | .abortUsage | .abortLoad => [.idle]
  | .qpix _ _ _ _ | .ldix _ => [.fill]
  | .rdix _ => [.fill, .ready, .packed]
  | .pack => [.ready]
  | .unpk | .emit | .abortWrite => [.packed]

/-- The table's rows in one line. -/
theorem admission_eq (i : Instr) (p : Phase) :
    admission i p = if p.live then (if p ∈ admittedIn i then .yes else .trap) else .noStep := by
  cases i <;> cases p <;> rfl

theorem admission_noStep_iff : admission i s.phase = .noStep ↔ s.phase.live = false := by
  rw [admission_eq]
  split_ifs <;> simp_all

theorem admission_trap_iff : admission i s.phase = .trap ↔ s.phase.live = true ∧ s.phase ∉ admittedIn i := by
  rw [admission_eq]
  split_ifs <;> simp_all

theorem admission_yes_iff : admission i s.phase = .yes ↔ s.phase.live = true ∧ s.phase ∈ admittedIn i := by
  rw [admission_eq]
  split_ifs <;> simp_all

/-- Every meaning checks the phase first, against the command's row. -/
theorem exec_eq_whenAdmitted (i : Instr) (s : State) : ∃ body, exec i s = whenAdmitted (admittedIn i) s body := by
  cases i <;> exact ⟨_, rfl⟩

theorem exec_of_not_live (h : s.phase.live = false) : exec i s = .fault .noStep := by
  obtain ⟨body, hexec⟩ := exec_eq_whenAdmitted i s
  simp [hexec, whenAdmitted, h]

theorem exec_of_not_admitted (hl : s.phase.live = true) (h : s.phase ∉ admittedIn i) :
    exec i s = raise .illegalCommand s := by
  obtain ⟨body, hexec⟩ := exec_eq_whenAdmitted i s
  simp [hexec, whenAdmitted, hl, h]

/-- A command out of its phase raises `IllegalCommand` as R103 lists it. -/
theorem raisedBy_illegal (hl : s.phase.live = true) (h : s.phase ∉ admittedIn i) :
    RaisedBy .illegalCommand i s :=
  .inl (admission_trap_iff.mpr ⟨hl, h⟩)

theorem live_of_exec (h : exec i s = .next t) : s.phase.live = true := (exec_next h).1

theorem not_live_iff (p : Phase) : p.live = false ↔ p = .done ∨ p = .halt := by cases p <;> decide

/-! ### A step is the decoded command, or waiting (R19, R58, R124) -/

theorem step_of_no_action (hhost : s.host = []) : step s = .next s := by
  simp [step, hhost, hostIdle]

theorem step_of_reset {rest : List HostAction} (hhost : s.host = .reset :: rest) :
    step s = .next (resetCore (s.setHost rest)) := by
  simp [step, hhost, resetPin]

theorem step_of_command {w : Cmd} {rest : List HostAction} (hhost : s.host = .command w :: rest)
    (hdecode : decode w = .ok i) : step s = exec i (s.setHost rest) := by
  simp [step, hhost, hdecode]

theorem step_of_illegal {w : Cmd} {rest : List HostAction} {e : IllegalWord} (hhost : s.host = .command w :: rest)
    (hdecode : decode w = .error e) : step s = illegalWord (s.setHost rest) := by
  simp [step, hhost, hdecode]

/-- Settles O6: the decoded command is all that the step runs. -/
theorem stepRunsTheDecodedCommand : Obligations.StepRunsTheDecodedCommand := by
  unfold Obligations.StepRunsTheDecodedCommand
  exact fun _ _ _ _ => step_of_command

/-- Settles O7: waiting is a step of its own, which looks at nothing but the host's actions. -/
theorem stepWaitsForTheHost : Obligations.StepWaitsForTheHost := by
  unfold Obligations.StepWaitsForTheHost
  exact fun _ => step_of_no_action

/-! ### Illegal words (R58) -/

theorem illegalWord_of_live (h : s.phase.live = true) : illegalWord s = raise .illegalCommand s := if_pos h

theorem illegalWord_of_not_live (h : s.phase.live = false) : illegalWord s = .fault .noStep := by
  simp [illegalWord, h]

theorem illegalWord_fault {f : Fault} (h : illegalWord s = .fault f) : f = .noStep ∧ s.phase.live = false := by
  cases hl : s.phase.live with
  | true => simp [illegalWord_of_live hl, raise] at h
  | false => exact ⟨by simpa [illegalWord_of_not_live hl, eq_comm] using h, rfl⟩

/-! ### The final phases (R31) -/

/-- Outside the live phases a step that answers is waiting or a reset. -/
theorem step_next_of_not_live (hnot : s.phase.live = false) (h : step s = .next t) :
    (s.host = [] ∧ t = s) ∨ ∃ rest, s.host = .reset :: rest := by
  obtain hwait | ⟨rest, hhost, -⟩ | ⟨w, rest, i, -, -, hexec⟩ | ⟨w, rest, e, -, -, hl, -⟩ := step_next h
  · exact .inl hwait
  · exact .inr ⟨rest, hhost⟩
  · have hl : s.phase.live = true := live_of_exec (s := s.setHost rest) hexec
    simp [hnot] at hl
  · simp [hnot] at hl

/-- Settles O11: neither waiting nor a reset presents a word. -/
theorem finalPhasesHaveNoStep : Obligations.FinalPhasesHaveNoStep := by
  unfold Obligations.FinalPhasesHaveNoStep
  intro s hfinal
  have hnot : s.phase.live = false := (not_live_iff _).mpr hfinal
  refine ⟨hnot, fun w rest hhost t h => ?_, fun t h => (step_next_of_not_live hnot h).imp_left And.right⟩
  obtain ⟨hnil, -⟩ | ⟨rest', hreset⟩ := step_next_of_not_live hnot h
  · simp [hhost] at hnil
  · simp [hhost] at hreset

/-! ### What the packer leaves -/

theorem bitNat_le_one (v : Byte) (k : Nat) : bitNat v k ≤ 1 := by
  unfold bitNat
  cases v.getLsbD k <;> decide

/-- An index rebuilt from four plane bits is a palette index (R88). -/
theorem unpackBits_lt (bytes : Fin 4 → Byte) (k : Nat) : (unpackBits bytes k).toNat < 16 := by
  have h0 := bitNat_le_one (bytes 0) k
  have h1 := bitNat_le_one (bytes 1) k
  have h2 := bitNat_le_one (bytes 2) k
  have h3 := bitNat_le_one (bytes 3) k
  simp only [unpackBits, BitVec.toNat_ofNat, Nat.shiftLeft_eq]
  omega

/-- The planes as `PACK` leaves them: in form where they were, with a value in every used byte. -/
abbrev PackedPlanes (s : State) (m : Vector Mem 4) : Prop :=
  (PlnForm s → PlnForm (s.setPln m)) ∧ ∀ p : Fin 4, ∀ o < s.ps, (((s.setPln m).plane p).read o).isSome

theorem packedPlanes_of_pack {z u : State} (hz : zeroBelow s s.ps = .ok z) (hu : packBelow z s.npix = .ok u) :
    ∃ m, u = s.setPln m ∧ PackedPlanes s m := by
  obtain ⟨-, hzero, hzform⟩ := zeroBelow_ok hz
  obtain ⟨-, huform, -, hpacked⟩ := packBelow_ok hu
  have hframe : u = s.setPln u.pln := pack_frame hz hu
  refine ⟨u.pln, hframe, ?_⟩
  rw [PackedPlanes, ← hframe]
  refine ⟨fun hf => huform (hzform hf), fun p o ho => ?_⟩
  obtain ⟨b, hb, -⟩ := hpacked p o 0 (by simp [hzero, ho])
  simp [hb]

/-- The slots as `UNPK` leaves them: in form and below the capacity where they were, a palette index in every used
slot, every other slot as before. -/
abbrev UnpackedSlots (s : State) (m : Mem) : Prop :=
  (s.idx.wf → m.wf) ∧
    ((∀ c ∈ s.idx, c.1 < s.params.idxCap) → ∀ c ∈ m, c.1 < s.params.idxCap) ∧
    (∀ n < s.npix, ∃ v, m.read n = some v ∧ v.toNat < 16) ∧ ∀ n, s.npix ≤ n → m.read n = s.idx.read n

theorem unpackedSlots_of_unpk (h : unpackBelow s s.npix = .ok t) : ∃ m, t = s.setIdx m ∧ UnpackedSlots s m := by
  obtain ⟨hframe, hwf, hcap, hused, hrest⟩ := unpackBelow_ok h
  refine ⟨t.idx, hframe, hwf, hcap, fun n hn => ?_, hrest⟩
  obtain ⟨-, v, hv, hread⟩ := hused n hn
  obtain ⟨-, bytes, -, rfl⟩ := unpackPixel_ok hv
  exact ⟨_, hread, unpackBits_lt _ _⟩

/-! ### What a command can do -/

/-- What a command that answers a next state has done to `s`, one case per kind of effect. -/
inductive Effect (s : State) : Instr → State → Prop
  | trap {i : Instr} {t : State} (c : Cause) (hcause : RaisedBy c i s) (hraise : raise c s = .next t) : Effect s i t
  | dim (w h : Dim) (hphase : s.phase = .idle) (hw : w ≠ 0#16) (hh : h ≠ 0#16) (haligned : w.toNat % 8 = 0)
      (hcap : w.toNat * h.toNat ≤ s.params.idxCap) :
      Effect s (.dim w h) (((s.setDims w h).setCur 0).setPhase .fill)
  | qpix (r g b a : Byte) (q : Fin 16) (hphase : s.phase = .fill) (hcap : s.cur.toNat < s.params.idxCap) :
      Effect s (.qpix r g b a) ((advance (s.setIdx (s.idx.write s.cur.toNat (zext8 q)))).setIdxout (zext8 q))
  | ldix (v : Byte) (hphase : s.phase = .fill) (hcap : s.cur.toNat < s.params.idxCap) :
      Effect s (.ldix v) (advance (s.setIdx (s.idx.write s.cur.toNat v)))
  | rdix (n : Word) (v : Byte) (hphase : s.phase ∈ admittedIn (.rdix n)) : Effect s (.rdix n) (s.setIdxout v)
  | pack (m : Vector Mem 4) (hphase : s.phase = .ready) (hcap : s.ps ≤ s.params.plnCap) (hplanes : PackedPlanes s m) :
      Effect s .pack ((s.setPln m).setPhase .packed)
  | unpk (m : Mem) (hphase : s.phase = .packed) (hslots : UnpackedSlots s m) : Effect s .unpk (s.setIdx m)
  | emit (bytes : List Byte) (hphase : s.phase = .packed) (hlength : bytes.length = 4 * s.ps) :
      Effect s .emit (((s.setOut (s.out ++ bytes)).setCount (BitVec.ofNat 32 (4 * s.ps))).setPhase .done)

/-- A trap out of phase, as an effect. -/
theorem Effect.illegal (hl : s.phase.live = true) (h : s.phase ∉ admittedIn i)
    (hraise : raise .illegalCommand s = .next t) : Effect s i t :=
  .trap .illegalCommand (raisedBy_illegal hl h) hraise

theorem mem_admittedIn_rdix (n : Word) (hl : s.phase.live = true) :
    s.phase ∈ admittedIn (.rdix n) ↔ s.phase ≠ .idle := by
  revert hl
  cases s.phase <;> simp [admittedIn, Phase.live]

theorem exec_effect (h : exec i s = .next t) : Effect s i t := by
  cases i with
  | dim w k =>
    obtain ⟨hl, ⟨hp, e⟩ | ⟨hp, hbad, e⟩ | ⟨hp, hcap, e⟩ | ⟨hp, hw, hk, h8, hcap, rfl⟩⟩ := execDim_next h
    · exact .illegal hl (by simpa [admittedIn] using hp) e
    · exact .trap .constraintViolation ⟨w, k, rfl, hp, hbad⟩ e
    · exact .trap .allocationFailure (.inl ⟨w, k, rfl, hp, hcap⟩) e
    · exact .dim w k hp hw hk h8 hcap
  | qpix r g b a =>
    obtain ⟨hl, ⟨hp, e⟩ | ⟨hp, hcap, rfl⟩⟩ := execQpix_next (a := a) h
    · exact .illegal hl (by simpa [admittedIn] using hp) e
    · exact .qpix r g b a _ hp hcap
  | ldix v =>
    obtain ⟨hl, ⟨hp, e⟩ | ⟨hp, hcap, rfl⟩⟩ := execLdix_next h
    · exact .illegal hl (by simpa [admittedIn] using hp) e
    · exact .ldix v hp hcap
  | rdix n =>
    obtain ⟨hl, ⟨hp, e⟩ | ⟨-, hn, e⟩ | ⟨hp, -, -, v, -, rfl⟩⟩ := execRdix_next h
    · exact .illegal hl (by simpa [mem_admittedIn_rdix n hl] using hp) e
    · exact .trap .illegalCommand (.inr ⟨n, rfl, hn⟩) e
    · exact .rdix n v ((mem_admittedIn_rdix n hl).mpr hp)
  | pack =>
    obtain ⟨hl, ⟨hp, e⟩ | ⟨hp, hcap, e⟩ | ⟨hp, hcap, -, z, u, hz, hu, rfl⟩⟩ := execPack_next h
    · exact .illegal hl (by simpa [admittedIn] using hp) e
    · exact .trap .allocationFailure (.inr ⟨rfl, hp, hcap⟩) e
    · obtain ⟨m, rfl, hm⟩ := packedPlanes_of_pack hz hu
      exact .pack m hp hcap hm
  | unpk =>
    obtain ⟨hl, ⟨hp, e⟩ | ⟨hp, -, hunpack⟩⟩ := execUnpk_next h
    · exact .illegal hl (by simpa [admittedIn] using hp) e
    · obtain ⟨m, rfl, hm⟩ := unpackedSlots_of_unpk hunpack
      exact .unpk m hp hm
  | emit =>
    obtain ⟨hl, ⟨hp, e⟩ | ⟨hp, bytes, hbytes, rfl⟩⟩ := execEmit_next h
    · exact .illegal hl (by simpa [admittedIn] using hp) e
    · exact .emit bytes hp (outputBytes_length hbytes)
  | abortUsage =>
    obtain ⟨hl, ⟨hp, e⟩ | ⟨hp, e⟩⟩ := execAbortUsage_next h
    · exact .trap .usageError ⟨rfl, hp⟩ e
    · exact .illegal hl (by simpa [admittedIn] using hp) e
  | abortLoad =>
    obtain ⟨hl, ⟨hp, e⟩ | ⟨hp, e⟩⟩ := execAbortLoad_next h
    · exact .trap .resourceLoadError ⟨rfl, hp⟩ e
    · exact .illegal hl (by simpa [admittedIn] using hp) e
  | abortWrite =>
    obtain ⟨hl, ⟨hp, e⟩ | ⟨hp, e⟩⟩ := execAbortWrite_next h
    · exact .trap .outputWriteError ⟨rfl, hp⟩ e
    · exact .illegal hl (by simpa [admittedIn] using hp) e

theorem ne_none_of_raisedBy {c : Cause} (h : RaisedBy c i s) : c ≠ .none := by
  rintro rfl
  exact h

theorem advance_phase_ne_halt (h : s.phase = .fill) : (advance s).phase ≠ .halt := by
  rw [advance_phase, h]
  split_ifs <;> simp

/-- A command ends in `HALT` only by trap entry, for a cause that R103 gives it (R112). -/
theorem trapped_of_exec_halt (h : exec i s = .next t) (hhalt : t.phase = .halt) :
    RaisedBy t.err i s ∧ Trapped t.err s t := by
  cases exec_effect h with
  | trap c hcause hraise =>
    have htrapped := trapped_of_raise hraise
    obtain ⟨rfl, -⟩ := id htrapped
    exact ⟨hcause, htrapped⟩
  | dim | pack | emit => simp at hhalt
  | qpix _ _ _ _ q hphase => exact absurd hhalt (advance_phase_ne_halt (s := s.setIdx _) hphase)
  | ldix v hphase => exact absurd hhalt (advance_phase_ne_halt (s := s.setIdx _) hphase)
  | rdix n v hphase =>
    rw [State.setIdxout_phase] at hhalt
    simp [hhalt, admittedIn] at hphase
  | unpk m hphase =>
    rw [State.setIdx_phase, hphase] at hhalt
    cases hhalt

/-! ### The invariants of a run (R33) -/

theorem runInv_reset (p : Params) (acts : List HostAction) :
    RunInv { State.reset with params := p, host := acts } := by
  simp [RunInv, HasImage, State.reset]

/-- Outside `DONE` a trap keeps the invariants. -/
theorem runInv_of_raise {c : Cause} (hr : RunInv s) (hdone : s.phase ≠ .done) (hc : c ≠ .none)
    (h : raise c s = .next t) : RunInv t := by
  obtain rfl := raise_next.mp h
  obtain ⟨-, -, -, -, -, -, hout, -⟩ := hr
  simp [RunInv, HasImage, hout hdone, hc]

theorem ne_done_of_live (hl : s.phase.live = true) : s.phase ≠ .done := by
  intro h
  simp [h, Phase.live] at hl

/-- A number up to `NPIX` fits a 32-bit register, since the dimensions have 16 bits each. -/
theorem mod_of_le_npix {n : Nat} (h : n ≤ s.npix) : n % 4294967296 = n := by
  have hlt : s.npix < 2 ^ 16 * 2 ^ 16 := Nat.mul_lt_mul'' s.width.isLt s.height.isLt
  omega

/-- In a live phase of a run nothing is put out yet and no error is shown (R33 items 6 and 7). -/
theorem nothing_out_of_live (hr : RunInv s) (hl : s.phase.live = true) :
    s.out = [] ∧ s.count = 0 ∧ s.err = .none := by
  obtain ⟨-, -, -, -, -, -, hout, herr⟩ := hr
  obtain ⟨hempty, hcount⟩ := hout (ne_done_of_live hl)
  have hhalt : s.phase ≠ .halt := by
    intro h
    simp [h, Phase.live] at hl
  exact ⟨hempty, hcount, not_not.mp (mt herr.mp hhalt)⟩

/-- An accepted `DIM` opens the image with at least one pixel to fill (R60, R63). -/
theorem runInv_dim {w h : Dim} (hr : RunInv s) (hphase : s.phase = .idle) (hw : w ≠ 0#16) (hh : h ≠ 0#16)
    (haligned : w.toNat % 8 = 0) (hcap : w.toNat * h.toNat ≤ s.params.idxCap) :
    RunInv (((s.setDims w h).setCur 0).setPhase .fill) := by
  obtain ⟨hout, hcount, herr⟩ := nothing_out_of_live hr (by simp [hphase, Phase.live])
  have hwpos : 0 < w.toNat := by bv_omega
  have hw8 : 8 ≤ w.toNat := by omega
  have hhpos : 0 < h.toNat := by bv_omega
  simp [RunInv, HasImage, hw8, haligned, Nat.succ_le_of_lt hhpos, hcap, hwpos, hhpos, hout, hcount, herr]

/-- `CUR` and `PHASE` advance together: `READY` exactly when the last slot is filled (R27, R29). -/
theorem runInv_advance (hr : RunInv s) (hphase : s.phase = .fill) : RunInv (advance s) := by
  obtain ⟨hout, hcount, herr⟩ := nothing_out_of_live hr (by simp [hphase, Phase.live])
  obtain ⟨-, himage, hfill, -⟩ := hr
  have hdims := himage (.inl hphase)
  have hlt := hfill hphase
  have hcur := mod_of_le_npix (n := s.cur.toNat + 1) hlt
  by_cases hlast : s.cur.toNat + 1 = s.npix
  · simp [RunInv, HasImage, hlast, hdims, hlast ▸ hcur, hout, hcount, herr]
  · have hmore : s.cur.toNat + 1 < s.npix := by omega
    simp [RunInv, HasImage, hlast, hphase, hdims, hcur, hmore, hout, hcount, herr]

theorem runInv_pack {m : Vector Mem 4} (hr : RunInv s) (hphase : s.phase = .ready) (hcap : s.ps ≤ s.params.plnCap) :
    RunInv ((s.setPln m).setPhase .packed) := by
  obtain ⟨hout, hcount, herr⟩ := nothing_out_of_live hr (by simp [hphase, Phase.live])
  obtain ⟨-, himage, -, hfull, -⟩ := hr
  have hdims := himage (.inr (.inl hphase))
  simp [RunInv, HasImage, hdims, hfull (.inl hphase), hcap, hout, hcount, herr]

/-- `EMIT` puts out all `4 * PS` bytes at once, and that number fits `COUNT` (R93). -/
theorem runInv_emit {bytes : List Byte} (hr : RunInv s) (hphase : s.phase = .packed)
    (hlength : bytes.length = 4 * s.ps) :
    RunInv (((s.setOut (s.out ++ bytes)).setCount (BitVec.ofNat 32 (4 * s.ps))).setPhase .done) := by
  obtain ⟨hout, -, herr⟩ := nothing_out_of_live hr (by simp [hphase, Phase.live])
  obtain ⟨-, himage, -, hfull, hplanes, -⟩ := hr
  have hdims := himage (.inr (.inr (.inl hphase)))
  have hcount := mod_of_le_npix (s := s) (n := 4 * s.ps) (by unfold State.ps; omega)
  simp [RunInv, HasImage, hdims, hfull (.inr (.inl hphase)), hplanes (.inl hphase), hlength, hcount, hout, herr]

theorem exec_keeps_runInv (hr : RunInv s) (h : exec i s = .next t) : RunInv t := by
  have hdone := ne_done_of_live (live_of_exec h)
  cases exec_effect h with
  | trap c hcause hraise => exact runInv_of_raise hr hdone (ne_none_of_raisedBy hcause) hraise
  | dim w h hphase hw hh haligned hcap => exact runInv_dim hr hphase hw hh haligned hcap
  | qpix _ _ _ _ q hphase => exact runInv_advance (s := s.setIdx _) hr hphase
  | ldix v hphase => exact runInv_advance (s := s.setIdx _) hr hphase
  | rdix | unpk => exact hr
  | pack m hphase hcap => exact runInv_pack hr hphase hcap
  | emit bytes hphase hlength => exact runInv_emit hr hphase hlength

theorem step_keeps_runInv (hr : RunInv s) (h : step s = .next t) : RunInv t := by
  obtain ⟨-, rfl⟩ | ⟨rest, -, rfl⟩ | ⟨w, rest, i, -, -, hexec⟩ | ⟨w, rest, e, -, -, hl, hraise⟩ := step_next h
  · exact hr
  · exact runInv_reset s.params rest
  · exact exec_keeps_runInv (s := s.setHost rest) hr hexec
  · exact runInv_of_raise (s := s.setHost rest) hr (ne_done_of_live hl) (by simp) hraise

/-- R33 item 8: a step to or in `HALT` keeps the registers. -/
theorem step_to_halt_keeps_registers (h : step s = .next t) (hhalt : t.phase = .halt) :
    t.width = s.width ∧ t.height = s.height ∧ t.cur = s.cur ∧ t.count = s.count ∧ t.idxout = s.idxout := by
  obtain ⟨-, rfl⟩ | ⟨rest, -, rfl⟩ | ⟨w, rest, i, -, -, hexec⟩ | ⟨w, rest, e, -, -, -, hraise⟩ := step_next h
  · exact ⟨rfl, rfl, rfl, rfl, rfl⟩
  · simp at hhalt
  · obtain ⟨-, -, -, hw, hh, hcur, hcount, hidxout, -⟩ := trapped_of_exec_halt hexec hhalt
    exact ⟨hw, hh, hcur, hcount, hidxout⟩
  · obtain ⟨-, -, hw, hh, hcur, hcount, hidxout, -⟩ := trapped_of_raise hraise
    exact ⟨hw, hh, hcur, hcount, hidxout⟩

theorem phase_code_mem (p : Phase) : p.code ∈ ([0, 1, 2, 3, 4, 7] : List (BitVec 3)) := by cases p <;> decide

/-- Settles O42: each kind of step keeps the invariants of R33; a step to or in `HALT` is waiting or trap entry. -/
theorem everyStepKeepsRunInvariant : Obligations.EveryStepKeepsRunInvariant := by
  unfold Obligations.EveryStepKeepsRunInvariant
  exact ⟨runInv_reset, fun s t hr h =>
    ⟨step_keeps_runInv hr h, phase_code_mem t.phase, step_to_halt_keeps_registers h⟩⟩

/-! ### The invariants of the memories (R22, R23, R47) -/

theorem memInv_resetCore (s : State) : MemInv (resetCore s) := by
  simp [MemInv, HasImage, Mem.nil_wf]

/-- A slot below the new `CUR` lies below the old `CUR` or is the one just filled. -/
theorem lt_or_eq_of_lt_advance_cur {n : Nat} (h : n < (advance s).cur.toNat) : n < s.cur.toNat ∨ n = s.cur.toNat := by
  have hle : n < s.cur.toNat + 1 := h.trans_le (by simp [Nat.mod_le])
  omega

/-- Filling the next slot keeps the memories in form, and the slots below the new `CUR` hold values. -/
theorem memInv_fill {v : Byte} (hm : MemInv s) (hphase : s.phase = .fill) (hcap : s.cur.toNat < s.params.idxCap) :
    MemInv (advance (s.setIdx (s.idx.write s.cur.toNat v))) := by
  obtain ⟨hidx, hpln, hidxCap, hplnCap, hslots, -⟩ := hm
  have hfilled := hslots (.inl hphase)
  refine ⟨Mem.write_wf _ _ hidx, hpln, fun c hc => ?_, hplnCap, fun _ n hn => ?_, fun h => ?_⟩
  · obtain rfl | hc := Mem.mem_write hc
    · exact hcap
    · exact hidxCap c hc
  · rw [advance_idx, State.setIdx_idx, Mem.read_write]
    split_ifs with hcur
    · rfl
    · exact hfilled n ((lt_or_eq_of_lt_advance_cur hn).resolve_right hcur)
  · rw [advance_phase] at h
    split_ifs at h <;> simp [hphase] at h

/-- `PACK` gives every used plane byte a value. -/
theorem memInv_pack {m : Vector Mem 4} (hm : MemInv s) (hphase : s.phase = .ready) (hplanes : PackedPlanes s m) :
    MemInv ((s.setPln m).setPhase .packed) := by
  obtain ⟨hidx, hpln, hidxCap, hplnCap, hslots, -⟩ := hm
  obtain ⟨hform, hread⟩ := hplanes
  obtain ⟨hpln', hplnCap'⟩ := hform ⟨hpln, hplnCap⟩
  exact ⟨hidx, hpln', hidxCap, hplnCap', fun _ => hslots (.inr (.inl hphase)), fun _ => hread⟩

/-- `UNPK` gives every used slot a value, and the used slots are those below `CUR`. -/
theorem memInv_unpk {m : Mem} (hr : RunInv s) (hm : MemInv s) (hphase : s.phase = .packed)
    (hslots : UnpackedSlots s m) : MemInv (s.setIdx m) := by
  obtain ⟨hidx, hpln, hidxCap, hplnCap, -, hbytes⟩ := hm
  obtain ⟨-, -, -, hfull, -⟩ := hr
  obtain ⟨hidx', hidxCap', hused, -⟩ := hslots
  refine ⟨hidx' hidx, hpln, hidxCap' hidxCap, hplnCap, fun _ n hn => ?_, hbytes⟩
  rw [State.setIdx_cur, hfull (.inr (.inl hphase))] at hn
  obtain ⟨v, hv, -⟩ := hused n hn
  simp [hv]

theorem exec_keeps_memInv (hr : RunInv s) (hm : MemInv s) (h : exec i s = .next t) : MemInv t := by
  cases exec_effect h with
  | trap c _ hraise => exact memInv_of_raise hraise
  | dim w h =>
    obtain ⟨hidx, hpln, hidxCap, hplnCap, -⟩ := hm
    exact ⟨hidx, hpln, hidxCap, hplnCap, by simp, by simp⟩
  | qpix _ _ _ _ q hphase hcap => exact memInv_fill hm hphase hcap
  | ldix v hphase hcap => exact memInv_fill hm hphase hcap
  | rdix => exact hm
  | pack m hphase _ hplanes => exact memInv_pack hm hphase hplanes
  | unpk m hphase hslots => exact memInv_unpk hr hm hphase hslots
  | emit bytes hphase =>
    obtain ⟨hidx, hpln, hidxCap, hplnCap, hslots, hbytes⟩ := hm
    exact ⟨hidx, hpln, hidxCap, hplnCap, fun _ => hslots (.inr (.inr (.inl hphase))), fun _ => hbytes (.inl hphase)⟩

/-- Settles O43: a fill writes below the capacity, `PACK` and `UNPK` write every byte they make readable, and a trap and
a reset forget the memories. -/
theorem everyStepKeepsMemoryInvariant : Obligations.EveryStepKeepsMemoryInvariant := by
  unfold Obligations.EveryStepKeepsMemoryInvariant
  intro s t hr hm h
  obtain ⟨-, rfl⟩ | ⟨rest, -, rfl⟩ | ⟨w, rest, i, -, -, hexec⟩ | ⟨w, rest, e, -, -, -, hraise⟩ := step_next h
  · exact hm
  · exact memInv_resetCore _
  · exact exec_keeps_memInv (s := s.setHost rest) hr hm hexec
  · exact memInv_of_raise hraise

/-- Settles O41: after reset no image is accepted, nothing is put out and the memories hold no value. -/
theorem invariantsHoldAtReset : Obligations.InvariantsHoldAtReset := by
  unfold Obligations.InvariantsHoldAtReset
  exact fun p => ⟨runInv_reset p [], memInv_resetCore { State.reset with params := p }⟩

/-! ### Slots in `0 .. 15` (R34) -/

/-- A fill with a value in `0 .. 15` keeps every slot filled in the run there. -/
theorem nibbleSlots_fill {v : Byte} (hn : NibbleSlots s) (hphase : s.phase = .fill) (hv : v.toNat < 16) :
    NibbleSlots (advance (s.setIdx (s.idx.write s.cur.toNat v))) := by
  intro _ n hlt x hx
  rw [advance_idx, State.setIdx_idx, Mem.read_write] at hx
  split_ifs at hx with hcur
  · obtain rfl : v = x := by simpa using hx
    exact hv
  · exact hn (.inl hphase) n ((lt_or_eq_of_lt_advance_cur hlt).resolve_right hcur) x hx

/-- `UNPK` writes only palette indices, and leaves the slots from `NPIX` on as they are. -/
theorem nibbleSlots_unpk {m : Mem} (hn : NibbleSlots s) (hslots : UnpackedSlots s m) : NibbleSlots (s.setIdx m) := by
  obtain ⟨-, -, hused, hrest⟩ := hslots
  intro himage n hlt x hx
  rw [State.setIdx_idx] at hx
  by_cases hnpix : n < s.npix
  · obtain ⟨v, hread, hv⟩ := hused n hnpix
    obtain rfl : v = x := by simpa [hread] using hx
    exact hv
  · exact hn himage n hlt x (by rwa [hrest n (not_lt.mp hnpix)] at hx)

theorem nibbleSlots_of_raise {c : Cause} (h : raise c s = .next t) : NibbleSlots t := by
  obtain rfl := raise_next.mp h
  simp [NibbleSlots, HasImage]

theorem exec_keeps_nibbleSlots (hn : NibbleSlots s) (hldix : ∀ v, i = .ldix v → v.toNat < 16)
    (h : exec i s = .next t) : NibbleSlots t := by
  cases exec_effect h with
  | trap c _ hraise => exact nibbleSlots_of_raise hraise
  | dim w h => simp [NibbleSlots]
  | qpix _ _ _ _ q hphase => exact nibbleSlots_fill hn hphase (by simp)
  | ldix v hphase => exact nibbleSlots_fill hn hphase (hldix v rfl)
  | rdix => exact hn
  | pack m hphase => exact fun _ => hn (.inr (.inl hphase))
  | unpk m _ hslots => exact nibbleSlots_unpk hn hslots
  | emit bytes hphase => exact fun _ => hn (.inr (.inr (.inl hphase)))

/-- Settles O44: `QPIX` fills with a palette index, `LDIX` with what is presented, `UNPK` with four plane bits; no other
command writes a slot. -/
theorem nibbleSlotsAreKept : Obligations.NibbleSlotsAreKept := by
  unfold Obligations.NibbleSlotsAreKept
  intro s t hn h hldix
  obtain ⟨-, rfl⟩ | ⟨rest, -, rfl⟩ | ⟨w, rest, i, hhost, hdecode, hexec⟩ | ⟨w, rest, e, -, -, -, hraise⟩ := step_next h
  · exact hn
  · simp [NibbleSlots, HasImage]
  · exact exec_keeps_nibbleSlots (s := s.setHost rest) hn
      (fun v hi => hldix w rest v hhost (hi ▸ hdecode)) hexec
  · exact nibbleSlots_of_raise hraise

/-! ### The admission table, row by row (R30) -/

/-- In a phase of its row an `ABORT` ends the run with its own cause (R100). -/
theorem abort_of_admitted (hl : s.phase.live = true) (h : s.phase ∈ admittedIn i) :
    (i = .abortUsage → exec i s = raise .usageError s) ∧
    (i = .abortLoad → exec i s = raise .resourceLoadError s) ∧
    (i = .abortWrite → exec i s = raise .outputWriteError s) := by
  refine ⟨?_, ?_, ?_⟩ <;> rintro rfl <;> exact whenAdmitted_of_mem _ hl h

/-- Settles O36: every meaning looks the phase up in its row first, and a command that ends in `HALT` has a cause that
R103 gives it. -/
theorem admissionTable : Obligations.AdmissionTable := by
  unfold Obligations.AdmissionTable
  refine ⟨fun i s => ⟨fun hno t h => ?_, fun htrap => ?_, fun hyes t h hhalt herr => ?_, fun hyes => ?_⟩,
    fun s w rest e hhost hdecode => ⟨fun hl => ?_, fun hl t h => ?_⟩⟩
  · simp [exec_of_not_live (admission_noStep_iff.mp hno)] at h
  · obtain ⟨hl, hnot⟩ := admission_trap_iff.mp htrap
    rw [exec_of_not_admitted hl hnot]
    exact raise_trapped _ s
  · have hcause := (trapped_of_exec_halt h hhalt).1
    rw [herr] at hcause
    exact hcause.resolve_left (by simp [hyes])
  · obtain ⟨hl, hmem⟩ := admission_yes_iff.mp hyes
    obtain ⟨husage, hload, hwrite⟩ := abort_of_admitted hl hmem
    exact ⟨fun hi => husage hi ▸ raise_trapped _ s, fun hi => hload hi ▸ raise_trapped _ s,
      fun hi => hwrite hi ▸ raise_trapped _ s⟩
  · rw [step_of_illegal hhost hdecode, illegalWord_of_live (s := s.setHost rest) hl]
    exact raise_trapped _ _
  · simp [step_of_illegal hhost hdecode, illegalWord_of_not_live (s := s.setHost rest) hl] at h

/-! ### Filling a slot (R73, R78, R80) -/

theorem exec_ldix_of_fill (v : Byte) (hphase : s.phase = .fill) (hcap : s.cur.toNat < s.params.idxCap) :
    exec (.ldix v) s = .next (advance (s.setIdx (s.idx.write s.cur.toNat v))) := by
  have hrule := whenAdmitted_of_mem (s := s) (phases := [.fill]) (commit (fillNext s v)) (by simp [hphase, Phase.live])
    (by simp [hphase])
  exact hrule.trans (commit_next.mpr (fillNext_ok.mpr ⟨hcap, rfl⟩))

theorem exec_qpix_of_fill (r g b a : Byte) (hphase : s.phase = .fill) (hcap : s.cur.toNat < s.params.idxCap) :
    exec (.qpix r g b a) s = .next ((advance (s.setIdx (s.idx.write s.cur.toNat
      (zext8 (quant s.params.pal { r := r, g := g, b := b }))))).setIdxout
        (zext8 (quant s.params.pal { r := r, g := g, b := b }))) := by
  refine (whenAdmitted_of_mem (s := s) (phases := [.fill]) _ (by simp [hphase, Phase.live]) (by simp [hphase])).trans ?_
  exact commit_next.mpr (bind_ok.mpr ⟨_, fillNext_ok.mpr ⟨hcap, rfl⟩, rfl⟩)

theorem advance_setIdx (m : Mem) (hphase : s.phase = .fill) :
    advance (s.setIdx m) = { s with
      idx := m
      cur := BitVec.ofNat 32 (s.cur.toNat + 1)
      phase := if s.cur.toNat + 1 = s.npix then .ready else .fill } := by
  rw [← hphase]
  rfl

/-- Settles O20: the fill of `exec_qpix_of_fill`, its registers by `advance_setIdx` and its slots by one memory write. -/
theorem qpixFillsTheNextSlot : Obligations.QpixFillsTheNextSlot := by
  unfold Obligations.QpixFillsTheNextSlot
  intro s r g b a hphase hcur hcap
  refine ⟨_, exec_qpix_of_fill r g b a hphase (hcur.trans_le hcap), ?_, fun n => ?_⟩
  · rw [advance_setIdx _ hphase]
    rfl
  · exact Mem.read_write _ _ n _

/-- Settles O21: as for `QPIX`, by `exec_ldix_of_fill`. -/
theorem ldixFillsTheNextSlot : Obligations.LdixFillsTheNextSlot := by
  unfold Obligations.LdixFillsTheNextSlot
  intro s v hphase hcur hcap
  refine ⟨_, exec_ldix_of_fill v hphase (hcur.trans_le hcap), ?_, fun n => ?_⟩
  · rw [advance_setIdx _ hphase]
  · exact Mem.read_write _ _ n _

/-! ### Moves, writes and output (R11, R24, R29) -/

/-- The new phase of a fill is the one R29 lists. -/
theorem transition_fill (hr : RunInv s) (hphase : s.phase = .fill) (v : Byte) :
    transition (.ldix v) s (advance s).phase = true := by
  obtain ⟨-, -, hfill, -⟩ := hr
  have hlt := hfill hphase
  by_cases hlast : s.cur.toNat + 1 = s.npix
  · simp [transition, hphase, hlast]
  · have hmore : s.cur.toNat + 1 < s.npix := by omega
    simp [transition, hphase, hlast, hmore]

theorem exec_moves_as_listed (hr : RunInv s) (h : exec i s = .next t) :
    (t.phase = .halt ∧ s.phase.live = true) ∨ transition i s t.phase = true := by
  cases exec_effect h with
  | trap c _ hraise =>
    obtain ⟨-, hhalt, -⟩ := trapped_of_raise hraise
    exact .inl ⟨hhalt, live_of_exec h⟩
  | qpix _ _ _ _ q hphase => exact .inr (transition_fill (s := s.setIdx _) hr hphase 0)
  | ldix v hphase => exact .inr (transition_fill (s := s.setIdx _) hr hphase v)
  | rdix n v hphase => exact .inr (by simpa [transition, admittedIn, or_assoc] using hphase)
  | dim _ _ hphase | pack _ hphase | unpk _ hphase | emit _ hphase => exact .inr (by simp [transition, hphase])

/-- Settles O45: reset, waiting and an illegal word by the form of the step, a command by its effect. -/
theorem phaseMovesOnlyAsListed : Obligations.PhaseMovesOnlyAsListed := by
  unfold Obligations.PhaseMovesOnlyAsListed
  refine ⟨rfl, fun s t rest hhost h => ?_, fun s t hhost h => ?_, fun s t w rest e hhost hdecode h => ?_,
    fun _ _ _ => exec_moves_as_listed⟩
  · rw [step_of_reset hhost] at h
    cases h
    rfl
  · rw [step_of_no_action hhost] at h
    cases h
    rfl
  · rw [step_of_illegal hhost hdecode] at h
    cases hl : s.phase.live with
    | false => simp [illegalWord_of_not_live (s := s.setHost rest) hl] at h
    | true =>
      rw [illegalWord_of_live (s := s.setHost rest) hl] at h
      obtain ⟨-, hhalt, -⟩ := trapped_of_raise h
      exact ⟨hhalt, rfl⟩

/-- Settles O46: a trap keeps every register but `ERR` and `PHASE`; any other effect writes what its command lists. -/
theorem onlyListedCommandsWrite : Obligations.OnlyListedCommandsWrite := by
  unfold Obligations.OnlyListedCommandsWrite
  intro i s t h
  cases exec_effect h with
  | trap c _ hraise =>
    obtain ⟨-, hhalt, hw, hh, hcur, hcount, hidxout, hout, hparams, hhost⟩ := trapped_of_raise hraise
    simp [hhalt, hw, hh, hcur, hcount, hidxout, hout, hparams, hhost]
  | dim | qpix | ldix | rdix | pack | unpk | emit => simp

/-- Only `EMIT` in `PACKED` changes `OUT`, and it ends the run (R24, R93). -/
theorem emit_of_out_changed (h : exec i s = .next t) (hout : t.out ≠ s.out) :
    i = .emit ∧ s.phase = .packed ∧ t.phase = .done := by
  cases exec_effect h with
  | trap c _ hraise =>
    obtain ⟨-, -, -, -, -, -, -, hkept, -⟩ := trapped_of_raise hraise
    exact absurd hkept hout
  | emit bytes hphase => exact ⟨rfl, hphase, rfl⟩
  | dim | qpix | ldix | rdix | pack | unpk => simp at hout

/-- Settles O34: the invariants of a run say when `OUT` is empty, and a trap keeps it. -/
theorem outputIsCompleteOrEmpty : Obligations.OutputIsCompleteOrEmpty := by
  unfold Obligations.OutputIsCompleteOrEmpty
  refine ⟨fun s hr => ?_, fun _ _ _ => emit_of_out_changed, fun i s t hr h hhalt => ?_⟩
  · obtain ⟨-, -, -, -, -, hcomplete, hempty, -⟩ := hr
    by_cases hdone : s.phase = .done
    · obtain ⟨hlength, hcount⟩ := hcomplete hdone
      exact .inr ⟨hdone, hlength.trans hcount⟩
    · exact .inl (hempty hdone).1
  · obtain ⟨-, -, -, -, -, -, -, -, hout, -⟩ := trapped_of_exec_halt h hhalt
    exact hout.trans (nothing_out_of_live hr (live_of_exec h)).1

/-! ### Every admitted command answers (R47, R110) -/

theorem whenAdmitted_answers {phases : List Phase} {body : Result} (hl : s.phase.live = true)
    (hbody : s.phase ∈ phases → ∃ t, body = .next t) : ∃ t, whenAdmitted phases s body = .next t := by
  by_cases hm : s.phase ∈ phases
  · rw [whenAdmitted_of_mem body hl hm]
    exact hbody hm
  · exact ⟨_, by simp only [whenAdmitted, hl, hm, if_true, if_false]; rfl⟩

/-- Every slot of the image exists. -/
theorem npix_le_idxCap (hr : RunInv s) (himage : HasImage s.phase) : s.npix ≤ s.params.idxCap := by
  obtain ⟨-, hdims, -⟩ := hr
  obtain ⟨-, -, -, hcap⟩ := hdims himage
  exact hcap

theorem width_aligned (hr : RunInv s) (himage : HasImage s.phase) : s.width.toNat % 8 = 0 := by
  obtain ⟨-, hdims, -⟩ := hr
  obtain ⟨-, haligned, -⟩ := hdims himage
  exact haligned

theorem cur_le_npix (hr : RunInv s) (himage : HasImage s.phase) : s.cur.toNat ≤ s.npix := by
  obtain ⟨-, -, hfill, hfull, -⟩ := hr
  obtain hphase | hphase := himage
  · exact (hfill hphase).le
  · exact (hfull hphase).le

/-- The byte of a used pixel is a used byte, since an aligned image fills whole bytes (R41). -/
theorem byteOffset_lt_ps {n : Nat} (haligned : s.width.toNat % 8 = 0) (hn : n < s.npix) : byteOffset n < s.ps := by
  have hwhole : s.npix % 8 = 0 := by simp [State.npix, Nat.mul_mod, haligned]
  unfold byteOffset State.ps
  omega

theorem execRdix_answers (n : Word) (hr : RunInv s) (hm : MemInv s) (hl : s.phase.live = true) :
    ∃ t, execRdix n s = .next t := by
  refine whenAdmitted_answers hl fun hphase => ?_
  obtain ⟨-, -, -, -, hslots, -⟩ := hm
  have himage : HasImage s.phase := by
    obtain h | h | h : s.phase = .fill ∨ s.phase = .ready ∨ s.phase = .packed := by simpa using hphase
    exacts [.inl h, .inr (.inl h), .inr (.inr (.inl h))]
  split_ifs with hn
  · exact ⟨_, rfl⟩
  · have hlt : n.toNat < s.cur.toNat := not_le.mp hn
    obtain ⟨v, hv⟩ := Option.isSome_iff_exists.mp (hslots himage n.toNat hlt)
    have hcap := hlt.trans_le ((cur_le_npix hr himage).trans (npix_le_idxCap hr himage))
    exact ⟨_, commit_next.mpr (bind_ok.mpr ⟨v, readIdx_ok.mpr ⟨hcap, hv⟩, rfl⟩)⟩

theorem execPack_answers (hr : RunInv s) (hm : MemInv s) (hl : s.phase.live = true) : ∃ t, execPack s = .next t := by
  refine whenAdmitted_answers hl fun hphase => ?_
  have hphase : s.phase = .ready := by simpa using hphase
  have himage : HasImage s.phase := .inr (.inl hphase)
  have haligned := width_aligned hr himage
  obtain ⟨-, -, -, -, hslots, -⟩ := hm
  obtain ⟨-, -, -, hfull, -⟩ := id hr
  by_cases hcap : s.params.plnCap < s.ps
  · exact ⟨_, if_pos hcap⟩
  · rw [if_neg hcap, if_neg (not_not.mpr haligned)]
    obtain ⟨z, hz⟩ := zeroBelow_answers (not_lt.mp hcap)
    obtain ⟨hframe, hzero, -⟩ := zeroBelow_ok hz
    obtain ⟨u, hu⟩ := packBelow_answers (s := z) (k := s.npix) fun n hn => by
      have hbyte := byteOffset_lt_ps haligned hn
      rw [params_of_frame hframe, idx_of_frame hframe]
      exact ⟨hn.trans_le (npix_le_idxCap hr himage), hslots himage n (by rwa [hfull (.inl hphase)]),
        hbyte.trans_le (not_lt.mp hcap), fun q => by simp [hzero, hbyte]⟩
    exact ⟨_, commit_next.mpr (bind_ok.mpr ⟨z, hz, bind_ok.mpr ⟨u, hu, rfl⟩⟩)⟩

/-- In `PACKED` every used plane byte exists and holds a value. -/
theorem plane_read_of_packed (hr : RunInv s) (hm : MemInv s) (hphase : s.phase = .packed) {o : Nat} (ho : o < s.ps) :
    o < s.params.plnCap ∧ ∀ p : Fin 4, ((s.plane p).read o).isSome := by
  obtain ⟨-, -, -, -, -, hbytes⟩ := hm
  obtain ⟨-, -, -, -, hcap, -⟩ := hr
  exact ⟨ho.trans_le (hcap (.inl hphase)), fun p => hbytes (.inl hphase) p o ho⟩

theorem execUnpk_answers (hr : RunInv s) (hm : MemInv s) (hl : s.phase.live = true) : ∃ t, execUnpk s = .next t := by
  refine whenAdmitted_answers hl fun hphase => ?_
  have hphase : s.phase = .packed := by simpa using hphase
  have himage : HasImage s.phase := .inr (.inr (.inl hphase))
  have haligned := width_aligned hr himage
  obtain ⟨t, ht⟩ := unpackBelow_answers (s := s) (k := s.npix) fun n hn => by
    obtain ⟨hcap, hread⟩ := plane_read_of_packed hr hm hphase (byteOffset_lt_ps haligned hn)
    choose bytes hbytes using fun p => Option.isSome_iff_exists.mp (hread p)
    exact ⟨hn.trans_le (npix_le_idxCap hr himage), _, unpackPixel_answers hcap hbytes⟩
  exact ⟨t, by simp [haligned, ht]⟩

theorem execEmit_answers (hr : RunInv s) (hm : MemInv s) (hl : s.phase.live = true) : ∃ t, execEmit s = .next t := by
  refine whenAdmitted_answers hl fun hphase => ?_
  have hphase : s.phase = .packed := by simpa using hphase
  have hplane : ∀ p : Fin 4, ∃ l, planeBytes s p s.ps = .ok l := fun p =>
    planeBytes_answers fun o ho => by
      obtain ⟨hcap, hread⟩ := plane_read_of_packed hr hm hphase ho
      exact ⟨hcap, hread p⟩
  choose l hbytes using hplane
  have hout : outputBytes s = .ok (l 0 ++ l 1 ++ l 2 ++ l 3) := by simp [outputBytes, hbytes]
  exact ⟨_, commit_next.mpr (bind_ok.mpr ⟨_, hout, rfl⟩)⟩

/-- On a run a command always answers in a live phase: it is performed, or it traps. -/
theorem exec_answers (i : Instr) (hr : RunInv s) (hm : MemInv s) (hl : s.phase.live = true) :
    ∃ t, exec i s = .next t := by
  have hslot : s.phase = .fill → s.cur.toNat < s.params.idxCap := fun hphase => by
    obtain ⟨-, -, hfill, -⟩ := id hr
    exact (hfill hphase).trans_le (npix_le_idxCap hr (.inl hphase))
  by_cases hadmitted : s.phase ∈ admittedIn i
  · cases i with
    | dim w h =>
      refine whenAdmitted_answers hl fun _ => ?_
      split_ifs <;> exact ⟨_, rfl⟩
    | qpix r g b a =>
      have hphase : s.phase = .fill := by simpa [admittedIn] using hadmitted
      exact ⟨_, exec_qpix_of_fill r g b a hphase (hslot hphase)⟩
    | ldix v =>
      have hphase : s.phase = .fill := by simpa [admittedIn] using hadmitted
      exact ⟨_, exec_ldix_of_fill v hphase (hslot hphase)⟩
    | rdix n => exact execRdix_answers n hr hm hl
    | pack => exact execPack_answers hr hm hl
    | unpk => exact execUnpk_answers hr hm hl
    | emit => exact execEmit_answers hr hm hl
    | abortUsage | abortLoad | abortWrite => exact whenAdmitted_answers hl fun _ => ⟨_, rfl⟩
  · exact ⟨_, exec_of_not_admitted hl hadmitted⟩

theorem exec_fault (hr : RunInv s) (hm : MemInv s) {f : Fault} (h : exec i s = .fault f) :
    f = .noStep ∧ s.phase.live = false := by
  cases hl : s.phase.live with
  | true =>
    obtain ⟨t, hnext⟩ := exec_answers i hr hm hl
    simp [hnext] at h
  | false => exact ⟨by simpa [exec_of_not_live hl, eq_comm] using h, rfl⟩

/-- A step faults only on a presented word. -/
theorem step_fault {f : Fault} (h : step s = .fault f) :
    ∃ w rest, s.host = .command w :: rest ∧
      ((∃ i, exec i (s.setHost rest) = .fault f) ∨ illegalWord (s.setHost rest) = .fault f) := by
  unfold step at h
  split at h
  · simp [hostIdle] at h
  · simp [resetPin] at h
  · next w rest hhost =>
    refine ⟨w, rest, hhost, ?_⟩
    split at h
    · exact .inl ⟨_, h⟩
    · exact .inr h

/-- Settles O40: in a live phase every presented word answers, so a fault is that of a final phase. -/
theorem noMemoryAccessFaults : Obligations.NoMemoryAccessFaults := by
  unfold Obligations.NoMemoryAccessFaults
  intro s f hr hm h
  obtain ⟨w, rest, hhost, hword⟩ := step_fault h
  have hfinal : f = .noStep ∧ s.phase.live = false := by
    obtain ⟨i, hexec⟩ | hillegal := hword
    · exact exec_fault (s := s.setHost rest) hr hm hexec
    · exact illegalWord_fault (s := s.setHost rest) hillegal
  exact ⟨hfinal.1, (not_live_iff _).mp hfinal.2, w, rest, hhost⟩

/-! ### After reset (R32) -/

theorem idle_admitted_iff (i : Instr) :
    Phase.idle ∈ admittedIn i ↔ (∃ w h, i = .dim w h) ∨ i = .abortUsage ∨ i = .abortLoad := by
  cases i <;> simp [admittedIn]

/-- A command that answers in `IDLE` with `ERR` clear shows `IllegalCommand` exactly when `IDLE` does not admit it. -/
theorem illegal_iff_not_admitted (hphase : s.phase = .idle) (herr : s.err = .none) (h : exec i s = .next t) :
    t.err = .illegalCommand ↔ Phase.idle ∉ admittedIn i := by
  constructor
  · intro hill hadmitted
    cases exec_effect h with
    | trap c hcause hraise =>
      obtain ⟨rfl, -⟩ := trapped_of_raise hraise
      rw [hill] at hcause
      obtain htrap | ⟨n, rfl, -⟩ := hcause
      · exact (admission_trap_iff.mp htrap).2 (hphase ▸ hadmitted)
      · simp [admittedIn] at hadmitted
    | dim => simp [herr] at hill
    | qpix _ _ _ _ _ hp | ldix _ hp | pack _ hp | unpk _ hp | emit _ hp => simp [hphase] at hp
    | rdix => simp [admittedIn] at hadmitted
  · intro hnot
    rw [exec_of_not_admitted (live_of_exec h) (hphase ▸ hnot)] at h
    exact (trapped_of_raise h).1

/-- Settles O9: the values are those of `State.reset`, and the commands that `IDLE` admits are the three listed. -/
theorem resetValues : Obligations.ResetValues := by
  unfold Obligations.ResetValues
  refine ⟨rfl, rfl, rfl, rfl, rfl, rfl, rfl, rfl, rfl, rfl, rfl, fun _ => rfl, fun p o => ?_, fun _ => rfl, fun i => ?_⟩
  · exact congrArg (Mem.read · o) (plane_resetCore State.reset p)
  · have hreset := invariantsHoldAtReset Params.default
    obtain ⟨t, h⟩ := exec_answers (s := State.reset) i hreset.1 hreset.2 rfl
    exact ⟨t, h, (illegal_iff_not_admitted rfl rfl h).trans (not_congr (idle_admitted_iff i))⟩

/-! ### The exit status (R17) -/

/-- Settles O48: `EXIT` in `HALT` is the status of the cause shown. -/
theorem exitPortIsTheExitStatus : Obligations.ExitPortIsTheExitStatus := by
  unfold Obligations.ExitPortIsTheExitStatus
  refine fun s => ⟨Scope.exitPort_of_not_halt, fun hhalt herr => ?_, fun hhalt herr => ?_⟩
  · rw [Scope.exitPort_of_halt hhalt]
    rcases herr with h | h | h <;> rw [h] <;> rfl
  · rw [Scope.exitPort_of_halt hhalt]
    rcases herr with h | h | h <;> rw [h] <;> rfl

end Sys2Proof.Proofs.CoreState

/-! ## The memories: slots, plane bits and output bytes (20_memory.md) -/

namespace Sys2Proof.Proofs.Memory

open Sys2Proof.Machine Sys2Proof.Safety Sys2Proof.Proofs.CoreState

variable {s t u z : State}

/-! ### A slot read (R79) -/

theorem execRdix_of_written {n : Word} {v : Byte} (hphase : s.phase = .fill ∨ s.phase = .ready ∨ s.phase = .packed)
    (hcur : n.toNat < s.cur.toNat) (hcap : n.toNat < s.params.idxCap) (hread : s.idx.read n.toNat = some v) :
    execRdix n s = .next (s.setIdxout v) := by
  have hlive : s.phase.live = true := by rcases hphase with h | h | h <;> simp [h, Phase.live]
  unfold execRdix
  rw [whenAdmitted_of_mem _ hlive (by simpa using hphase), if_neg (not_le.mpr hcur)]
  exact commit_next.mpr (bind_ok.mpr ⟨v, readIdx_ok.mpr ⟨hcap, hread⟩, rfl⟩)

/-- Settles O22: in its phases `RDIX` of a slot below `CUR` is one read and one register write. -/
theorem rdixShowsAWrittenSlot : Obligations.RdixShowsAWrittenSlot := by
  unfold Obligations.RdixShowsAWrittenSlot
  exact fun _ _ _ => execRdix_of_written

/-! ### Which pixel owns a plane bit (R38, R41) -/

section Aligned

variable {w : Nat} (h8 : w % 8 = 0)
include h8

theorem column_mod_eight (n : Nat) : column w n % 8 = n % 8 :=
  Nat.mod_mod_of_dvd n (Nat.dvd_of_mod_eq_zero h8)

theorem bitPosition_eq (n : Nat) : bitPosition w n = 7 - n % 8 := by
  rw [bitPosition, column_mod_eight h8]

/-- The row of a pixel is that of its byte, since a row holds `WIDTH / 8` whole bytes. -/
theorem row_eq_byteOffset_div (n : Nat) : row w n = byteOffset n / (w / 8) := by
  rw [row, byteOffset, Nat.div_div_eq_div_mul, Nat.mul_div_cancel' (Nat.dvd_of_mod_eq_zero h8)]

/-- The owner of bit `k` of byte `o` is the pixel `8o + (7 - k)`, and no other. -/
theorem owns_bit_iff {o k : Nat} (hk : k < 8) (n : Nat) :
    byteOffset n = o ∧ bitPosition w n = k ↔ n = 8 * o + (7 - k) := by
  rw [bitPosition_eq h8, byteOffset]
  omega

end Aligned

/-- Settles O27: with an aligned width the column and the position agree modulo 8, and a byte and a bit give the
position back. -/
theorem alignedWidthOwnsEachBitOnce : Obligations.AlignedWidthOwnsEachBitOnce := by
  unfold Obligations.AlignedWidthOwnsEachBitOnce
  intro w _ h8
  refine ⟨fun y => ?_, fun n => ⟨(column_mod_eight h8 n).symm, bitPosition_eq h8 n⟩, fun o j hj => ?_,
    fun o k hk => ⟨8 * o + (7 - k), (owns_bit_iff h8 hk _).mpr rfl, fun m hbyte hbit => ?_⟩⟩
  · simp [position, Nat.mul_mod, h8]
  · have hbyte : byteOffset (8 * o + j) = byteOffset (8 * o) := by
      unfold byteOffset
      omega
    calc row w (8 * o + j)
      _ = byteOffset (8 * o) / (w / 8) := by rw [row_eq_byteOffset_div h8, hbyte]
      _ = 8 * o / w := (row_eq_byteOffset_div h8 _).symm
  · exact (owns_bit_iff h8 hk m).mp ⟨hbyte, hbit⟩

/-! ### The bits that `PACK` leaves (R84) -/

theorem exec_pack_of_ready (hphase : s.phase = .ready) (h8 : s.width.toNat % 8 = 0) (hcap : s.ps ≤ s.params.plnCap)
    (hz : zeroBelow s s.ps = .ok z) (hu : packBelow z s.npix = .ok u) :
    exec .pack s = .next (u.setPhase .packed) := by
  refine (whenAdmitted_of_mem _ (by simp [hphase, Phase.live]) (by simp [hphase])).trans ?_
  rw [if_neg (not_lt.mpr hcap), if_neg (not_not.mpr h8)]
  exact commit_next.mpr (bind_ok.mpr ⟨z, hz, bind_ok.mpr ⟨u, hu, rfl⟩⟩)

/-- The two loops of `PACK` answer when the image fits and every slot of it holds a value. -/
theorem pack_loops_answer (h8 : s.width.toNat % 8 = 0) (hcap : s.ps ≤ s.params.plnCap)
    (hidx : s.npix ≤ s.params.idxCap) (hslots : ∀ n < s.npix, (s.idx.read n).isSome) :
    ∃ z u, zeroBelow s s.ps = .ok z ∧ packBelow z s.npix = .ok u := by
  obtain ⟨z, hz⟩ := zeroBelow_answers hcap
  obtain ⟨hframe, hzero, -⟩ := zeroBelow_ok hz
  obtain ⟨u, hu⟩ := packBelow_answers (s := z) (k := s.npix) fun n hn => by
    have hbyte := byteOffset_lt_ps h8 hn
    rw [params_of_frame hframe, idx_of_frame hframe]
    exact ⟨hn.trans_le hidx, hslots n hn, hbyte.trans_le hcap, fun q => by simp [hzero, hbyte]⟩
  exact ⟨z, u, hz, hu⟩

/-- The mask of R84 keeps the bits that the planes take. -/
theorem nibble_mask_bit (p : Fin 4) : (0x0F#8).getLsbD p.val = true := by
  revert p
  decide

/-- After the loops a used plane byte has a bit set exactly when a pixel of the image owns the bit and its slot has the
plane's bit. -/
theorem packed_bit_iff (hz : zeroBelow s s.ps = .ok z) (hu : packBelow z s.npix = .ok u) (p : Fin 4) {o : Nat}
    (ho : o < s.ps) :
    ∃ b, (u.plane p).read o = some b ∧ ∀ k < 8, b.getLsbD k = true ↔
      ∃ n < s.npix, byteOffset n = o ∧ bitPosition s.width.toNat n = k ∧
        ∃ v, s.idx.read n = some v ∧ v.getLsbD p.val = true := by
  obtain ⟨hframe, hzero, -⟩ := zeroBelow_ok hz
  obtain ⟨-, -, -, hpacked⟩ := packBelow_ok hu
  obtain ⟨b, hb, hbits⟩ := hpacked p o 0 (by simp [hzero, ho])
  refine ⟨b, hb, fun k hk => ?_⟩
  simpa [idx_of_frame hframe, width_of_frame hframe, nibble_mask_bit] using hbits k hk

/-- With an aligned width a pixel is the only one to set its bit, so the bit is that of its slot. -/
theorem packed_bit_eq (h8 : s.width.toNat % 8 = 0) (hz : zeroBelow s s.ps = .ok z) (hu : packBelow z s.npix = .ok u)
    (p : Fin 4) {n : Nat} {v : Byte} (hn : n < s.npix) (hv : s.idx.read n = some v) :
    ∃ b, (u.plane p).read (byteOffset n) = some b ∧ b.getLsbD (bitPosition s.width.toNat n) = v.getLsbD p.val := by
  have hk : bitPosition s.width.toNat n < 8 := by
    unfold bitPosition
    omega
  obtain ⟨b, hb, hbits⟩ := packed_bit_iff hz hu p (byteOffset_lt_ps h8 hn)
  refine ⟨b, hb, Bool.eq_iff_iff.mpr ((hbits _ hk).trans ⟨?_, fun hset => ⟨n, hn, rfl, rfl, v, hv, hset⟩⟩)⟩
  rintro ⟨m, -, hbyte, hbit, x, hx, hset⟩
  have hm := (owns_bit_iff h8 hk m).mp ⟨hbyte, hbit⟩
  obtain rfl : m = n := hm.trans ((owns_bit_iff h8 hk n).mp ⟨rfl, rfl⟩).symm
  obtain rfl : x = v := Option.some.inj (hx.symm.trans hv)
  exact hset

/-- Settles O25: the algorithm of R84 sets a bit for its owner alone. -/
theorem packedBitsFollowThePlaneLaw : Obligations.PackedBitsFollowThePlaneLaw := by
  unfold Obligations.PackedBitsFollowThePlaneLaw
  intro s slot hphase h8 hcap hidx hslots
  obtain ⟨z, u, hz, hu⟩ := pack_loops_answer h8 hcap hidx fun n hn => by simp [hslots n hn]
  exact ⟨_, exec_pack_of_ready hphase h8 hcap hz hu, fun n hn p => packed_bit_eq h8 hz hu p hn (hslots n hn)⟩

/-! ### The bytes that `EMIT` puts out (R39, R92) -/

/-- Of four blocks of `k` bytes in a row, byte `o` of block `p` stands at position `p*k + o`: the `p` blocks before it
hold `p*k` bytes. -/
theorem getElem?_four_blocks {k o : Nat} (block : Fin 4 → List Byte) (hlength : ∀ p, (block p).length = k) (p : Fin 4)
    (ho : o < k) : (block 0 ++ block 1 ++ block 2 ++ block 3)[outPosition k p.val o]? = (block p)[o]? := by
  unfold outPosition
  fin_cases p <;> grind

/-- The output is the planes one after another: byte `(p, o)` stands at position `p*PS + o`. -/
theorem outputBytes_getElem? {bytes : List Byte} (h : outputBytes s = .ok bytes) (p : Fin 4) {o : Nat} (ho : o < s.ps) :
    bytes[outPosition s.ps p.val o]? = (s.plane p).read o := by
  obtain ⟨l0, l1, l2, l3, h0, h1, h2, h3, rfl⟩ := outputBytes_ok h
  have hplane : ∀ q : Fin 4, planeBytes s q s.ps = .ok (![l0, l1, l2, l3] q) := by
    intro q
    fin_cases q <;> assumption
  refine (getElem?_four_blocks ![l0, l1, l2, l3] (fun q => (planeBytes_ok (hplane q)).1) p ho).trans ?_
  exact ((planeBytes_ok (hplane p)).2 o ho).2

theorem outPosition_lt {ps o : Nat} (p : Fin 4) (ho : o < ps) : outPosition ps p.val o < 4 * ps := by
  calc p.val * ps + o
    _ < (p.val + 1) * ps := by rw [Nat.succ_mul]; omega
    _ ≤ 4 * ps := Nat.mul_le_mul_right ps p.isLt

theorem outputBytes_answers (hcap : s.ps ≤ s.params.plnCap)
    (hbytes : ∀ p : Fin 4, ∀ o < s.ps, ((s.plane p).read o).isSome) : ∃ bytes, outputBytes s = .ok bytes := by
  choose l hl using fun p : Fin 4 => planeBytes_answers (s := s) (p := p) (k := s.ps)
    fun o ho => ⟨ho.trans_le hcap, hbytes p o ho⟩
  exact ⟨l 0 ++ l 1 ++ l 2 ++ l 3, by simp [outputBytes, hl]⟩

theorem exec_emit_of_packed {bytes : List Byte} (hphase : s.phase = .packed) (h : outputBytes s = .ok bytes) :
    exec .emit s =
      .next (((s.setOut (s.out ++ bytes)).setCount (BitVec.ofNat 32 (4 * s.ps))).setPhase .done) := by
  refine (whenAdmitted_of_mem _ (by simp [hphase, Phase.live]) (by simp [hphase])).trans ?_
  exact commit_next.mpr (bind_ok.mpr ⟨bytes, h, rfl⟩)

/-- Settles O32: the bytes appended are `outputBytes`, whose byte at `p*PS + o` is byte `o` of plane `p`. -/
theorem emitWritesThePlanesInOrder : Obligations.EmitWritesThePlanesInOrder := by
  unfold Obligations.EmitWritesThePlanesInOrder
  intro s byte hphase hcap hbyte
  obtain ⟨bytes, h⟩ := outputBytes_answers hcap fun p o ho => by simp [hbyte p o ho]
  exact ⟨_, exec_emit_of_packed hphase h, rfl, bytes, rfl, outputBytes_length h,
    fun p o ho => (outputBytes_getElem? h p ho).trans (hbyte p o ho)⟩

/-- Where nothing was put out before, what `EMIT` puts out is the planes. -/
theorem outIsPlanes_of_emit (hr : RunInv s) (h : execEmit s = .next t) (hphase : s.phase = .packed) :
    OutIsPlanes t := by
  obtain ⟨hl, ⟨hnot, -⟩ | ⟨-, bytes, hbytes, rfl⟩⟩ := execEmit_next h
  · exact absurd hphase hnot
  have hlength := outputBytes_length hbytes
  have hout : s.out ++ bytes = bytes := by rw [(nothing_out_of_live hr hl).1, List.nil_append]
  refine ⟨by simpa [hout] using hlength, fun p o ho => ?_⟩
  have hlt : outPosition s.ps p.val o < bytes.length := hlength ▸ outPosition_lt p ho
  have hbyte := outputBytes_getElem? hbytes p ho
  rw [List.getElem?_eq_getElem hlt] at hbyte
  exact ⟨bytes[outPosition s.ps p.val o], hbyte.symm, by simp [hout, hlt]⟩

/-- Only `EMIT` ends a run in `DONE` (R29). -/
theorem emit_of_done {i : Instr} (h : exec i s = .next t) (hdone : t.phase = .done) :
    i = .emit ∧ s.phase = .packed := by
  cases exec_effect h with
  | trap c _ hraise =>
    obtain ⟨-, hhalt, -⟩ := trapped_of_raise hraise
    simp [hdone] at hhalt
  | emit bytes hphase => exact ⟨rfl, hphase⟩
  | dim | pack => simp at hdone
  | qpix _ _ _ _ _ hphase | ldix _ hphase => simp [hphase, ite_eq_iff] at hdone
  | unpk _ hphase => simp [hphase] at hdone
  | rdix => exact absurd hdone (ne_done_of_live (s := s) (live_of_exec h))

/-- Settles O51: after reset and after a trap the phase is another, and only `EMIT` leads to `DONE`. -/
theorem outputHoldsThePlanesInDone : Obligations.OutputHoldsThePlanesInDone := by
  unfold Obligations.OutputHoldsThePlanesInDone
  refine ⟨fun p acts hdone => by simp [State.reset] at hdone, fun s t hr ho h hdone => ?_⟩
  obtain ⟨-, rfl⟩ | ⟨rest, -, rfl⟩ | ⟨w, rest, i, -, -, hexec⟩ | ⟨w, rest, e, -, -, -, hraise⟩ := step_next h
  · exact ho hdone
  · simp at hdone
  · obtain ⟨rfl, hphase⟩ := emit_of_done (s := s.setHost rest) hexec hdone
    exact outIsPlanes_of_emit (s := s.setHost rest) hr hexec hphase
  · obtain ⟨-, hhalt, -⟩ := trapped_of_raise hraise
    simp [hdone] at hhalt

/-! ### A live phase accepts every word (R47, R53, R58) -/

theorem live_iff (p : Phase) : p.live = true ↔ p = .idle ∨ p = .fill ∨ p = .ready ∨ p = .packed := by
  cases p <;> decide

/-- On a run a presented word always has a step in a live phase: a command answers, an illegal word traps. -/
theorem step_answers {w : Cmd} {rest : List HostAction} (hr : RunInv s) (hm : MemInv s)
    (hhost : s.host = .command w :: rest) (hl : s.phase.live = true) : ∃ t, step s = .next t := by
  cases hdecode : decode w with
  | ok i =>
    rw [step_of_command hhost hdecode]
    exact exec_answers (s := s.setHost rest) i hr hm hl
  | error e =>
    rw [step_of_illegal hhost hdecode, illegalWord_of_live (s := s.setHost rest) hl]
    exact ⟨_, rfl⟩

/-- Settles O50: `cmd_ready` is the test for a live phase, and there `step_answers` applies. -/
theorem livePhasesAcceptEveryWord : Obligations.LivePhasesAcceptEveryWord := by
  unfold Obligations.LivePhasesAcceptEveryWord
  exact fun s w rest hr hm hhost => ⟨live_iff s.phase, step_answers hr hm hhost⟩

end Sys2Proof.Proofs.Memory

/-! ## The encoding: decoder, encoder, opcode map and assembler (30_encoding.md) -/

namespace Sys2Proof.Proofs.Encoding

open Sys2Proof.Machine Sys2Proof.Safety Sys2Proof.Proofs.CoreState

variable {c : Cmd} {i : Instr}

/-! ### A word is its fields, most significant first (R53, R54) -/

theorem formatD_fields (c : Cmd) : opField c ++ wField c ++ hField c = c := by
  simp only [opField, wField, BitVec.extractLsb'_append_extractLsb'_eq_extractLsb']
  exact BitVec.extractLsb'_append_extractLsb' (w := 24) (len := 16)

theorem formatP_fields (c : Cmd) : opField c ++ rField c ++ gField c ++ bField c ++ aField c = c := by
  simp only [opField, rField, gField, bField, BitVec.extractLsb'_append_extractLsb'_eq_extractLsb']
  exact BitVec.extractLsb'_append_extractLsb' (w := 32) (len := 8)

theorem formatV_fields (c : Cmd) : opField c ++ ldixZeros c ++ aField c = c := by
  simp only [opField, ldixZeros, BitVec.extractLsb'_append_extractLsb'_eq_extractLsb']
  exact BitVec.extractLsb'_append_extractLsb' (w := 32) (len := 8)

/-- Formats N and Z. -/
theorem formatN_fields (c : Cmd) : opField c ++ argField c = c :=
  BitVec.extractLsb'_append_extractLsb' (w := 8) (len := 32)

theorem formatC_fields (c : Cmd) : opField c ++ abortZeros c ++ codeField c = c := by
  simp only [opField, abortZeros, BitVec.extractLsb'_append_extractLsb'_eq_extractLsb']
  exact BitVec.extractLsb'_append_extractLsb' (w := 37) (len := 3)

/-- Settles O2: the decoder fixes every field that it does not hand on as an operand, and a word is its fields. -/
theorem decodedWordEncodesToItself : Obligations.DecodedWordEncodesToItself := by
  unfold Obligations.DecodedWordEncodesToItself
  intro c i h
  obtain ⟨hop, rfl⟩ | ⟨hop, rfl⟩ | ⟨hop, hzero, rfl⟩ | ⟨hop, rfl⟩ | ⟨hop, harg, rfl⟩ | ⟨hop, harg, rfl⟩ |
    ⟨hop, harg, rfl⟩ | ⟨hop, hzero, hcode, rfl⟩ | ⟨hop, hzero, hcode, rfl⟩ | ⟨hop, hzero, hcode, rfl⟩ := decode_ok h
  · rw [encode, ← hop]
    exact formatD_fields c
  · rw [encode, ← hop]
    exact formatP_fields c
  · rw [encode, ← hop, ← hzero]
    exact formatV_fields c
  · rw [encode, ← hop]
    exact formatN_fields c
  iterate 3
    · rw [encode, ← hop, ← harg]
      exact formatN_fields c
  iterate 3
    · rw [encode, ← hop, ← hzero, ← hcode]
      exact formatC_fields c

/-! ### The decoder by opcode (R56) -/

theorem decode_of_opField_dim (hop : opField c = 0x01#8) : decode c = .ok (.dim (wField c) (hField c)) := by
  simp [decode, hop]

theorem decode_of_opField_qpix (hop : opField c = 0x02#8) :
    decode c = .ok (.qpix (rField c) (gField c) (bField c) (aField c)) := by
  simp [decode, hop]

theorem decode_of_opField_ldix (hop : opField c = 0x03#8) (hzero : ldixZeros c = 0#24) :
    decode c = .ok (.ldix (aField c)) := by
  simp [decode, hop, hzero]

theorem decode_of_opField_rdix (hop : opField c = 0x04#8) : decode c = .ok (.rdix (argField c)) := by
  simp [decode, hop]

/-! ### Decode after encode -/

theorem opField_encode_dim (w h : Dim) : opField (encode (.dim w h)) = 0x01#8 :=
  BitVec.eq_of_toNat_eq (by rw [opField_toNat, encode_dim_toNat, BitVec.toNat_ofNat]; omega)

theorem opField_encode_qpix (r g b a : Byte) : opField (encode (.qpix r g b a)) = 0x02#8 :=
  BitVec.eq_of_toNat_eq (by rw [opField_toNat, encode_qpix_toNat, BitVec.toNat_ofNat]; omega)

theorem opField_encode_ldix (v : Byte) : opField (encode (.ldix v)) = 0x03#8 :=
  BitVec.eq_of_toNat_eq (by rw [opField_toNat, encode_ldix_toNat, BitVec.toNat_ofNat]; omega)

theorem opField_encode_rdix (n : Word) : opField (encode (.rdix n)) = 0x04#8 :=
  BitVec.eq_of_toNat_eq (by rw [opField_toNat, encode_rdix_toNat, BitVec.toNat_ofNat]; omega)

theorem ldixZeros_encode_ldix (v : Byte) : ldixZeros (encode (.ldix v)) = 0#24 :=
  BitVec.eq_of_toNat_eq (by rw [ldixZeros_toNat, encode_ldix_toNat, BitVec.toNat_ofNat]; omega)

theorem decode_encode_dim (w h : Dim) : decode (encode (.dim w h)) = .ok (.dim w h) := by
  have hw : wField (encode (.dim w h)) = w := BitVec.eq_of_toNat_eq (by rw [wField_toNat, encode_dim_toNat]; omega)
  have hh : hField (encode (.dim w h)) = h := BitVec.eq_of_toNat_eq (by rw [hField_toNat, encode_dim_toNat]; omega)
  rw [decode_of_opField_dim (opField_encode_dim w h), hw, hh]

theorem decode_encode_qpix (r g b a : Byte) : decode (encode (.qpix r g b a)) = .ok (.qpix r g b a) := by
  have hword := encode_qpix_toNat r g b a
  have hr : rField (encode (.qpix r g b a)) = r := BitVec.eq_of_toNat_eq (by rw [rField_toNat, hword]; omega)
  have hg : gField (encode (.qpix r g b a)) = g := BitVec.eq_of_toNat_eq (by rw [gField_toNat, hword]; omega)
  have hb : bField (encode (.qpix r g b a)) = b := BitVec.eq_of_toNat_eq (by rw [bField_toNat, hword]; omega)
  have ha : aField (encode (.qpix r g b a)) = a := BitVec.eq_of_toNat_eq (by rw [aField_toNat, hword]; omega)
  rw [decode_of_opField_qpix (opField_encode_qpix r g b a), hr, hg, hb, ha]

theorem decode_encode_ldix (v : Byte) : decode (encode (.ldix v)) = .ok (.ldix v) := by
  have hv : aField (encode (.ldix v)) = v := BitVec.eq_of_toNat_eq (by rw [aField_toNat, encode_ldix_toNat]; omega)
  rw [decode_of_opField_ldix (opField_encode_ldix v) (ldixZeros_encode_ldix v), hv]

theorem decode_encode_rdix (n : Word) : decode (encode (.rdix n)) = .ok (.rdix n) := by
  have hn : argField (encode (.rdix n)) = n := BitVec.eq_of_toNat_eq (by rw [argField_toNat, encode_rdix_toNat]; omega)
  rw [decode_of_opField_rdix (opField_encode_rdix n), hn]

/-- Settles O1: the four commands with operands by their fields; the six others are one word each. -/
theorem encodedCommandDecodesToItself : Obligations.EncodedCommandDecodesToItself := by
  unfold Obligations.EncodedCommandDecodesToItself
  intro i
  cases i with
  | dim w h => exact decode_encode_dim w h
  | qpix r g b a => exact decode_encode_qpix r g b a
  | ldix v => exact decode_encode_ldix v
  | rdix n => exact decode_encode_rdix n
  | pack | unpk | emit | abortUsage | abortLoad | abortWrite => decide

/-- Decoder and encoder are inverse to each other, on the legal words. -/
theorem decode_eq_ok_iff : decode c = .ok i ↔ encode i = c :=
  ⟨decodedWordEncodesToItself c i, fun h => h ▸ encodedCommandDecodesToItself i⟩

/-- Settles O5: each of the ten words is the word of its command. -/
theorem specWordsDecode : Obligations.SpecWordsDecode := by
  unfold Obligations.SpecWordsDecode
  simp only [decode_eq_ok_iff]
  decide

/-! ### The opcode map (R56) -/

theorem row_covers_encode (i : Instr) : i.row.covers (encode i) = true := by
  cases i with
  | dim w h => exact Laws.OpcodeMap.dim w h
  | qpix r g b a => exact Laws.OpcodeMap.qpix r g b a
  | ldix v => exact Laws.OpcodeMap.ldix v
  | rdix n => exact Laws.OpcodeMap.rdix n
  | pack => exact Laws.OpcodeMap.pack
  | unpk => exact Laws.OpcodeMap.unpk
  | emit => exact Laws.OpcodeMap.emit
  | abortUsage => exact Laws.OpcodeMap.abortUsage
  | abortLoad => exact Laws.OpcodeMap.abortLoad
  | abortWrite => exact Laws.OpcodeMap.abortWrite

/-- The bits that the mask keeps are the same in every word of a row. -/
theorem and_mask_of_covers (h : i.row.covers c = true) : c &&& i.row.mask = encode i &&& i.row.mask :=
  (eq_of_beq h).trans (eq_of_beq (row_covers_encode i)).symm

/-- A field that the mask keeps whole holds the same in every word of a row. -/
theorem field_of_covers {start len : Nat} (h : i.row.covers c = true)
    (hmask : i.row.mask.extractLsb' start len = BitVec.allOnes len) :
    c.extractLsb' start len = (encode i).extractLsb' start len := by
  have hfield := congrArg (BitVec.extractLsb' start len) (and_mask_of_covers h)
  simpa only [BitVec.extractLsb'_and, hmask, BitVec.and_allOnes] using hfield

theorem opField_of_covers (h : i.row.covers c = true) : opField c = opField (encode i) :=
  field_of_covers h (by cases i <;> rw [Instr.row] <;> decide)

theorem ldixZeros_of_covers {v : Byte} (h : (Instr.ldix v).row.covers c = true) :
    ldixZeros c = ldixZeros (encode (.ldix v)) :=
  field_of_covers h (by rw [Instr.row]; decide)

/-- A row whose mask keeps every bit has one word. -/
theorem eq_encode_of_covers (hmask : i.row.mask = 0xFFFFFFFFFF#40) (h : i.row.covers c = true) : c = encode i := by
  simpa only [hmask, mask_all] using and_mask_of_covers h

/-- A word of a command's row is a command of that row, with the operands its fields hold. -/
theorem decode_of_covers (h : i.row.covers c = true) : ∃ j, decode c = .ok j ∧ j.row = i.row := by
  cases i with
  | dim w h' => exact ⟨_, decode_of_opField_dim ((opField_of_covers h).trans (opField_encode_dim w h')), rfl⟩
  | qpix r g b a => exact ⟨_, decode_of_opField_qpix ((opField_of_covers h).trans (opField_encode_qpix r g b a)), rfl⟩
  | ldix v =>
    have hop := (opField_of_covers h).trans (opField_encode_ldix v)
    have hzero := (ldixZeros_of_covers h).trans (ldixZeros_encode_ldix v)
    exact ⟨_, decode_of_opField_ldix hop hzero, rfl⟩
  | rdix n => exact ⟨_, decode_of_opField_rdix ((opField_of_covers h).trans (opField_encode_rdix n)), rfl⟩
  | pack | unpk | emit | abortUsage | abortLoad | abortWrite =>
    exact ⟨_, decode_eq_ok_iff.mpr (eq_encode_of_covers rfl h).symm, rfl⟩

/-- Settles O3: a word of a row decodes there by its fixed fields, and a decoded word is its command's own word. -/
theorem opcodeMapDecidesTheCommand : Obligations.OpcodeMapDecidesTheCommand := by
  unfold Obligations.OpcodeMapDecidesTheCommand
  intro c row hrow
  obtain ⟨i, -, rfl⟩ := List.mem_map.mp hrow
  refine ⟨decode_of_covers, ?_⟩
  rintro ⟨j, hdecode, hj⟩
  rw [← hj, ← decode_eq_ok_iff.mp hdecode]
  exact row_covers_encode j

/-! ### The illegal words (R57) -/

theorem opField_eq_iff {op : BitVec 8} : opField c = op ↔ c.toNat / 2 ^ 32 = op.toNat := by
  rw [← BitVec.toNat_inj, opField_toNat]

theorem argField_eq_iff {arg : BitVec 32} : argField c = arg ↔ c.toNat % 2 ^ 32 = arg.toNat := by
  rw [← BitVec.toNat_inj, argField_toNat]

theorem ldixZeros_eq_iff {z : BitVec 24} : ldixZeros c = z ↔ c.toNat / 2 ^ 8 % 2 ^ 24 = z.toNat := by
  rw [← BitVec.toNat_inj, ldixZeros_toNat]

theorem abortZeros_eq_iff {z : BitVec 29} : abortZeros c = z ↔ c.toNat / 2 ^ 3 % 2 ^ 29 = z.toNat := by
  rw [← BitVec.toNat_inj, abortZeros_toNat]

theorem codeField_eq_iff {k : BitVec 3} : codeField c = k ↔ c.toNat % 2 ^ 3 = k.toNat := by
  rw [← BitVec.toNat_inj, codeField_toNat]

theorem illegalByList_of_decode_error {e : IllegalWord} (h : decode c = .error e) : IllegalByList c := by
  have hcases := decode_error h
  simp only [ne_eq, opField_eq_iff, argField_eq_iff, ldixZeros_eq_iff, abortZeros_eq_iff, codeField_eq_iff,
    BitVec.toNat_ofNat] at hcases
  simp only [IllegalByList]
  omega

theorem not_illegalByList_of_decode_ok (h : decode c = .ok i) : ¬ IllegalByList c := by
  have hcases := decode_ok h
  simp only [opField_eq_iff, argField_eq_iff, ldixZeros_eq_iff, abortZeros_eq_iff, codeField_eq_iff,
    BitVec.toNat_ofNat] at hcases
  simp only [IllegalByList]
  omega

theorem decode_error_iff_illegalByList : (∃ e, decode c = .error e) ↔ IllegalByList c := by
  refine ⟨fun ⟨e, h⟩ => illegalByList_of_decode_error h, fun hillegal => ?_⟩
  cases hdecode : decode c with
  | ok i => exact absurd hillegal (not_illegalByList_of_decode_ok hdecode)
  | error e => exact ⟨e, rfl⟩

/-- Settles O4: the step on a word that does not decode is the trap, and those words are the list. -/
theorem illegalWordsRaiseIllegalCommand : Obligations.IllegalWordsRaiseIllegalCommand := by
  unfold Obligations.IllegalWordsRaiseIllegalCommand
  refine ⟨fun _ => decode_error_iff_illegalByList, fun s w rest hhost hl hillegal => ?_⟩
  obtain ⟨e, hdecode⟩ := decode_error_iff_illegalByList.mpr hillegal
  rw [step_of_illegal hhost hdecode, illegalWord_of_live (s := s.setHost rest) hl]
  exact raise_trapped .illegalCommand (s.setHost rest)

/-! ### The assembler (R59) -/

section Assembler

variable {x : Written} {w : Cmd}

theorem assemble_eq_ok_iff : assemble x = .ok w ↔ x.wellFormed = true ∧ encode (writtenInstr x) = w := by
  unfold assemble
  split_ifs with hfits <;> simp [hfits]

theorem assembles_iff : (∃ w, assemble x = .ok w) ↔ x.wellFormed = true := by
  simp [assemble_eq_ok_iff]

theorem wellFormed_written (i : Instr) : i.written.wellFormed = true := by
  cases i with
  | dim w h => simp [Instr.written, Written.wellFormed, w.isLt, h.isLt]
  | qpix r g b a => simp [Instr.written, Written.wellFormed, r.isLt, g.isLt, b.isLt, a.isLt]
  | ldix v => simp [Instr.written, Written.wellFormed, v.isLt]
  | rdix n => simp [Instr.written, Written.wellFormed, n.isLt]
  | pack | unpk | emit | abortUsage | abortLoad | abortWrite => rfl

theorem writtenInstr_written (i : Instr) : writtenInstr i.written = i := by
  cases i <;> simp [Instr.written, writtenInstr]

/-- Operands that fit are kept as they are written. -/
theorem written_writtenInstr (hfits : x.wellFormed = true) (hreal : ∀ r g b, x ≠ .qrgb r g b) :
    (writtenInstr x).written = x := by
  cases x with
  | qrgb r g b => exact absurd rfl (hreal r g b)
  | abort code =>
    obtain (rfl | rfl) | rfl : (code = 1 ∨ code = 2) ∨ code = 5 := by simpa [Written.wellFormed] using hfits
    all_goals rfl
  | dim | qpix | ldix | rdix =>
    simp only [Written.wellFormed, Bool.and_eq_true, decide_eq_true_eq] at hfits
    simp only [writtenInstr, Instr.written, BitVec.toNat_ofNat, Nat.mod_eq_of_lt, hfits]
  | pack | unpk | emit => rfl

theorem decode_of_assemble (hreal : ∀ r g b, x ≠ .qrgb r g b) (h : assemble x = .ok w) :
    ∃ i, decode w = .ok i ∧ i.written = x := by
  obtain ⟨hfits, hw⟩ := assemble_eq_ok_iff.mp h
  exact ⟨writtenInstr x, decode_eq_ok_iff.mpr hw, written_writtenInstr hfits hreal⟩

theorem assemble_written (i : Instr) : assemble i.written = .ok (encode i) :=
  assemble_eq_ok_iff.mpr ⟨wellFormed_written i, by rw [writtenInstr_written]⟩

theorem assemble_qrgb (r g b : Nat) : assemble (.qrgb r g b) = assemble (.qpix r g b 0xFF) := by
  simp [assemble, Written.wellFormed, writtenInstr]

end Assembler

/-- Settles O8: the bounds are those of `wellFormed`; within them, writing and decoding undo each other. -/
theorem assemblyNeverTruncates : Obligations.AssemblyNeverTruncates := by
  unfold Obligations.AssemblyNeverTruncates
  simp only [assembles_iff]
  refine ⟨?_, ?_, ?_, ?_, ?_, fun _ _ => decode_of_assemble, assemble_written, assemble_qrgb⟩
  all_goals
    intros
    simp [Written.wellFormed]
    omega

end Sys2Proof.Proofs.Encoding

/-! ## Image set-up: what `DIM` answers, and what it promises (40_image_setup.md) -/

namespace Sys2Proof.Proofs.ImageSetup

open Sys2Proof.Machine Sys2Proof.Safety Sys2Proof.Proofs.Scope Sys2Proof.Proofs.CoreState

variable {s t : State} {w h : Dim}

/-! ### The four answers of `DIM` in `IDLE` (R60, R62) -/

theorem whenAdmitted_of_idle (body : Result) (hphase : s.phase = .idle) : whenAdmitted [.idle] s body = body :=
  whenAdmitted_of_mem body (by simp [hphase, Phase.live]) (by simp [hphase])

theorem execDim_of_zero (hphase : s.phase = .idle) (hzero : w = 0#16 ∨ h = 0#16) :
    execDim w h s = raise .constraintViolation s := by
  rw [execDim, whenAdmitted_of_idle _ hphase, if_pos hzero]

theorem execDim_of_unaligned (hphase : s.phase = .idle) (hunaligned : w.toNat % 8 ≠ 0) :
    execDim w h s = raise .constraintViolation s := by
  rw [execDim, whenAdmitted_of_idle _ hphase, if_pos hunaligned, ite_self]

theorem execDim_of_too_large (hphase : s.phase = .idle) (hw : w ≠ 0#16) (hh : h ≠ 0#16) (h8 : w.toNat % 8 = 0)
    (hlarge : s.params.idxCap < w.toNat * h.toNat) : execDim w h s = raise .allocationFailure s := by
  rw [execDim, whenAdmitted_of_idle _ hphase, if_neg (not_or.mpr ⟨hw, hh⟩), if_neg (not_not.mpr h8), if_pos hlarge]

theorem execDim_of_valid (hphase : s.phase = .idle) (hw : w ≠ 0#16) (hh : h ≠ 0#16) (h8 : w.toNat % 8 = 0)
    (hcap : w.toNat * h.toNat ≤ s.params.idxCap) :
    execDim w h s = .next (((s.setDims w h).setCur 0).setPhase .fill) := by
  rw [execDim, whenAdmitted_of_idle _ hphase, if_neg (not_or.mpr ⟨hw, hh⟩), if_neg (not_not.mpr h8),
    if_neg (not_lt.mpr hcap)]

/-- Settles O12: past the three checks only the assignments of R60 are left. -/
theorem dimAcceptsAValidImage : Obligations.DimAcceptsAValidImage := by
  unfold Obligations.DimAcceptsAValidImage
  exact fun _ _ _ => execDim_of_valid

/-- Settles O13: a zero dimension and a bad width are checked before the capacity is looked at. -/
theorem dimRaisesInOrder : Obligations.DimRaisesInOrder := by
  unfold Obligations.DimRaisesInOrder
  intro s w h hphase
  refine ⟨fun hbad => ?_, fun hw hh h8 hlarge => ?_⟩
  · have hraise : exec (.dim w h) s = raise .constraintViolation s := by
      obtain hw | hh | hunaligned := hbad
      · exact execDim_of_zero hphase (.inl hw)
      · exact execDim_of_zero hphase (.inr hh)
      · exact execDim_of_unaligned hphase hunaligned
    exact hraise ▸ raise_trapped _ s
  · have hraise : exec (.dim w h) s = raise .allocationFailure s := execDim_of_too_large hphase hw hh h8 hlarge
    exact hraise ▸ raise_trapped _ s

/-! ### The promise (R63) -/

/-- The promise is arithmetic: all of it follows from the four checks of R60. -/
theorem imagePromise_of_checks (hw : s.width ≠ 0#16) (hh : s.height ≠ 0#16) (h8 : s.width.toNat % 8 = 0)
    (hcap : s.npix ≤ s.params.idxCap) : ImagePromise s := by
  have hwidth : 8 ≤ s.width.toNat := by bv_omega
  have hheight : 1 ≤ s.height.toNat := by bv_omega
  have hsize : 8 ≤ s.npix := hwidth.trans (Nat.le_mul_of_pos_right _ hheight)
  have hwhole : 8 ∣ s.npix := (Nat.dvd_of_mod_eq_zero h8).mul_right _
  have hplane : 8 * s.ps = s.npix := Nat.mul_div_cancel' hwhole
  exact ⟨hwidth, h8, hheight, hsize, hcap, Nat.mod_eq_zero_of_dvd hwhole, rfl, by omega, hplane⟩

/-- The promise speaks of the dimensions and the capacity only. -/
theorem imagePromise_congr (hwidth : t.width = s.width) (hheight : t.height = s.height) (hparams : t.params = s.params)
    (hs : ImagePromise s) : ImagePromise t := by
  simpa only [ImagePromise, State.ps, State.npix, hwidth, hheight, hparams] using hs

/-- The step from `s` to `t` leaves the accepted image standing: out of `IDLE`, with the same dimensions. -/
abbrev KeepsImage (s t : State) : Prop := t.phase ≠ .idle ∧ t.width = s.width ∧ t.height = s.height

theorem keepsImage_of_raise {c : Cause} (h : raise c s = .next t) : KeepsImage s t := by
  obtain ⟨-, hhalt, hwidth, hheight, -⟩ := trapped_of_raise h
  exact ⟨by simp [hhalt], hwidth, hheight⟩

theorem keepsImage_advance (hphase : s.phase = .fill) : KeepsImage s (advance s) := by
  refine ⟨?_, rfl, rfl⟩
  rw [advance_phase, hphase]
  split_ifs <;> simp

/-- Out of `IDLE` no command writes the dimensions, and none leads back to `IDLE`. -/
theorem exec_keepsImage {i : Instr} (hidle : s.phase ≠ .idle) (h : exec i s = .next t) : KeepsImage s t := by
  cases exec_effect h with
  | trap c _ hraise => exact keepsImage_of_raise hraise
  | dim _ _ hphase => exact absurd hphase hidle
  | qpix _ _ _ _ q hphase => exact keepsImage_advance (s := s.setIdx _) hphase
  | ldix v hphase => exact keepsImage_advance (s := s.setIdx _) hphase
  | rdix | unpk => exact ⟨hidle, rfl, rfl⟩
  | pack | emit => exact ⟨by simp, rfl, rfl⟩

theorem step_keepsImage (hidle : s.phase ≠ .idle) (h : step s = .next t) :
    (∃ rest, s.host = .reset :: rest) ∨ KeepsImage s t := by
  obtain ⟨-, rfl⟩ | ⟨rest, hhost, -⟩ | ⟨w, rest, i, -, -, hexec⟩ | ⟨w, rest, e, -, -, -, hraise⟩ := step_next h
  · exact .inr ⟨hidle, rfl, rfl⟩
  · exact .inl ⟨rest, hhost⟩
  · exact .inr (exec_keepsImage (s := s.setHost rest) hidle hexec)
  · exact .inr (keepsImage_of_raise (s := s.setHost rest) hraise)

theorem imagePromise_of_dim (hdim : exec (.dim w h) s = .next t) (hhalt : t.phase ≠ .halt) : ImagePromise t := by
  cases exec_effect hdim with
  | trap c _ hraise =>
    obtain ⟨-, hph, -⟩ := trapped_of_raise hraise
    exact absurd hph hhalt
  | dim _ _ _ hw hh haligned hcap => exact imagePromise_of_checks hw hh haligned hcap

/-- Settles O14: the checks of an accepted `DIM` give the promise; every step but a reset keeps the dimensions and the
capacity, of which alone it speaks. -/
theorem dimPromiseHoldsUntilReset : Obligations.DimPromiseHoldsUntilReset := by
  unfold Obligations.DimPromiseHoldsUntilReset
  refine ⟨fun _ _ _ _ => imagePromise_of_dim, fun s t hidle hs hstep => ?_⟩
  refine (step_keepsImage hidle hstep).imp_right fun ⟨hphase, hwidth, hheight⟩ => ?_
  exact ⟨hphase, hwidth, hheight, imagePromise_congr hwidth hheight (step_keeps_params hstep) hs⟩

end Sys2Proof.Proofs.ImageSetup

/-! ## The quantizer: distance units, reference scan and comparator tree (41_quantizer.md) -/

namespace Sys2Proof.Proofs.Quantizer

open Sys2Proof.Machine

variable {d : Fin 16 → Nat} {i j : Fin 16}

/-! ### The two conditions of R64 -/

/-- Entry `i` is at minimum distance, and strictly nearer than every entry of lower index. -/
def LowestNearest (d : Fin 16 → Nat) (i : Fin 16) : Prop := (∀ j, d i ≤ d j) ∧ ∀ j, j < i → d i < d j

theorem LowestNearest.unique (hi : LowestNearest d i) (hj : LowestNearest d j) : i = j :=
  le_antisymm (not_lt.mp fun hlt => (hi.2 j hlt).not_ge (hj.1 i))
    (not_lt.mp fun hlt => (hj.2 i hlt).not_ge (hi.1 j))

/-- Two keys `{d, i}` compare by the distance first and by the index on a tie (R71). -/
theorem LowestNearest.least_key (hi : LowestNearest d i) (j : Fin 16) : d i * 16 + i.val ≤ d j * 16 + j.val := by
  obtain hij | hji := le_or_gt i j
  · have hdist := hi.1 j
    have hindex : i.val ≤ j.val := hij
    omega
  · have hdist := hi.2 j hji
    omega

/-! ### The scan and the tree meet them (R69, R71) -/

theorem quant_lowestNearest (pal : Palette) (px : Pixel) : LowestNearest (unitDistance pal px) (quant pal px) := by
  have hall : ∀ j : Fin 16, j ∈ 0 :: scanOrder := by decide
  have hascending : (0 :: scanOrder).Pairwise (· < ·) := by decide
  obtain ⟨-, hscan⟩ := scan_fold _ scanOrder (unitDistance pal px 0, 0) rfl hascending (quant pal px) rfl
  exact ⟨fun j => (hscan j (hall j)).1, fun j => (hscan j (hall j)).2⟩

theorem quantTree_lowestNearest (pal : Palette) (px : Pixel) :
    LowestNearest (unitDistance pal px) (quantTree pal px) := by
  obtain ⟨-, -, -, htree⟩ := subtree_spec (unitDistance pal px) 4 0 (by decide) _ rfl
  have hleaf (j : Fin 16) := htree j (Nat.zero_le _) (by simp)
  exact ⟨fun j => (hleaf j).1, fun j => (hleaf j).2⟩

theorem eq_quant_iff {pal : Palette} {px : Pixel} : i = quant pal px ↔ LowestNearest (unitDistance pal px) i := by
  refine ⟨fun hi => ?_, fun hi => hi.unique (quant_lowestNearest pal px)⟩
  rw [hi]
  exact quant_lowestNearest pal px

/-- Settles O15: the scan meets R64's two conditions, and at most one index does. -/
theorem quantIsTheLowestNearestEntry : Obligations.QuantIsTheLowestNearestEntry := by
  unfold Obligations.QuantIsTheLowestNearestEntry
  exact fun _ _ _ => eq_quant_iff

/-! ### Exact distances (R68) -/

section Byte

variable (x y : Byte)

theorem byte_sub_bounds : -255 ≤ (x.toNat : Int) - y.toNat ∧ (x.toNat : Int) - y.toNat ≤ 255 := by
  have hx := x.isLt
  have hy := y.isLt
  omega

theorem byte_sub_sq_le : ((x.toNat : Int) - y.toNat) ^ 2 ≤ 65025 := by
  obtain ⟨hlow, hhigh⟩ := byte_sub_bounds x y
  exact (sq_le_sq' hlow hhigh).trans_eq (by norm_num)

theorem byte_sub_sq_eq_zero : ((x.toNat : Int) - y.toNat) ^ 2 = 0 ↔ x = y := by
  rw [sq_eq_zero_iff, sub_eq_zero, Nat.cast_inj, BitVec.toNat_inj]

end Byte

section Distance

variable (c : Color) (px : Pixel)

theorem distance_eq : (distance c px : Int) = ((px.r.toNat : Int) - c.r.toNat) ^ 2 +
    ((px.g.toNat : Int) - c.g.toNat) ^ 2 + ((px.b.toNat : Int) - c.b.toNat) ^ 2 := by
  simp only [distance, Machine.sq, ← pow_two]
  exact Int.toNat_of_nonneg (by positivity)

theorem distance_le : distance c px ≤ 195075 := by
  have hsum := distance_eq c px
  have hr := byte_sub_sq_le px.r c.r
  have hg := byte_sub_sq_le px.g c.g
  have hb := byte_sub_sq_le px.b c.b
  omega

theorem distance_eq_zero : distance c px = 0 ↔ px.r = c.r ∧ px.g = c.g ∧ px.b = c.b := by
  rw [← Nat.cast_eq_zero (R := Int), distance_eq, add_eq_zero_iff_of_nonneg (by positivity) (by positivity),
    add_eq_zero_iff_of_nonneg (by positivity) (by positivity)]
  simp only [byte_sub_sq_eq_zero, and_assoc]

end Distance

theorem unitDistance_lt (pal : Palette) (px : Pixel) (j : Fin 16) : unitDistance pal px j < 2 ^ 18 :=
  (distance_le _ px).trans_lt (by norm_num)

/-- Settles O17: nothing is truncated, since the sum of the squares is natural and three squares are at most 195075. -/
theorem distanceIsExact : Obligations.DistanceIsExact := by
  unfold Obligations.DistanceIsExact
  refine ⟨fun pal px j => distance_eq _ px, fun x y => ?_, fun pal px j => ⟨distance_le _ px, unitDistance_lt pal px j⟩⟩
  obtain ⟨hlow, hhigh⟩ := byte_sub_bounds x y
  exact ⟨hlow, hhigh, sq_nonneg _, byte_sub_sq_le x y⟩

/-- Settles O16: the tree's root meets R64's conditions too, so it is the scan's index and has the least key. -/
theorem comparatorTreeComputesQuant : Obligations.ComparatorTreeComputesQuant := by
  unfold Obligations.ComparatorTreeComputesQuant
  intro pal px
  have htree := quantTree_lowestNearest pal px
  refine ⟨eq_quant_iff.mpr htree, fun j => ⟨htree.least_key j, ?_⟩⟩
  have hdist := unitDistance_lt pal px j
  have hindex := j.isLt
  rw [treeKey]
  omega

/-! ### Palette colours (R75) and alpha (R74) -/

theorem unitDistance_entry_eq_zero {pal : Palette} :
    unitDistance pal ⟨(pal.entry j).r, (pal.entry j).g, (pal.entry j).b⟩ i = 0 ↔ pal.entry j = pal.entry i := by
  rw [unitDistance, distance_eq_zero, Color.mk.injEq]

/-- Settles O18: entry `j` is at distance 0 from its own colour and, the entries being distinct, no other entry is. -/
theorem paletteColoursQuantizeToThemselves : Obligations.PaletteColoursQuantizeToThemselves := by
  unfold Obligations.PaletteColoursQuantizeToThemselves
  refine fun pal j hdistinct => (eq_quant_iff.mpr ?_).symm
  have hself := (unitDistance_entry_eq_zero (pal := pal) (j := j)).mpr rfl
  refine ⟨fun k => hself ▸ Nat.zero_le _, fun k hk => hself ▸ Nat.pos_of_ne_zero fun hzero => ?_⟩
  exact hk.ne' (hdistinct j k (unitDistance_entry_eq_zero.mp hzero))

/-- Settles O19: `execQpix` does not use its alpha, so the two outcomes are one by definition. -/
theorem alphaHasNoEffect : Obligations.AlphaHasNoEffect := by
  unfold Obligations.AlphaHasNoEffect
  intro r g b a a' s
  rfl

end Sys2Proof.Proofs.Quantizer

/-! ## Index access: what `RDIX` does above the filled slots (42_index_access.md) -/

namespace Sys2Proof.Proofs.IndexAccess

open Sys2Proof.Machine Sys2Proof.Proofs.CoreState Sys2Proof.Proofs.Memory

variable {s : State}

theorem exec_rdix_of_unwritten {n : Word} (hphase : s.phase = .fill ∨ s.phase = .ready ∨ s.phase = .packed)
    (hcur : s.cur.toNat ≤ n.toNat) : exec (.rdix n) s = raise .illegalCommand s := by
  have hlive : s.phase.live = true := (live_iff _).mpr (.inr hphase)
  have hadmitted : s.phase ∈ admittedIn (.rdix n) := by simpa [admittedIn] using hphase
  exact (whenAdmitted_of_mem _ hlive hadmitted).trans (if_pos hcur)

/-- Settles O23: `CUR` is compared before `IDX` is read, so the trap is all that the command does. -/
theorem rdixRaisesOnAnUnwrittenSlot : Obligations.RdixRaisesOnAnUnwrittenSlot := by
  unfold Obligations.RdixRaisesOnAnUnwrittenSlot
  intro s n hphase hcur
  exact exec_rdix_of_unwritten hphase hcur ▸ raise_trapped .illegalCommand s

end Sys2Proof.Proofs.IndexAccess

/-! ## The planar packer: the closed form of `PACK`, its inverse `UNPK`, and their round trips (43_planar_packer.md) -/

namespace Sys2Proof.Proofs.PlanarPacker

open Sys2Proof.Machine Sys2Proof.Proofs.CoreState Sys2Proof.Proofs.Memory

variable {s t u z : State}

/-! ### The two bit permutations (R85, R88) -/

section Bits

variable (slots : Fin 8 → Byte) (bytes : Fin 4 → Byte) (p : Fin 4)

/-- The mask of R84 as bits: those of the four planes. -/
theorem getLsbD_nibble_mask (i : Nat) : (0x0F#8).getLsbD i = decide (i < 4) := by
  by_cases hi : i < 8
  · interval_cases i <;> rfl
  · have hlarge : ¬ i < 4 := by omega
    simp [BitVec.getLsbD_of_ge _ _ (not_lt.mp hi), hlarge]

/-- The byte of R85 takes its bits from the slots, the leftmost pixel's slot for the most significant bit. -/
theorem packGroup_eq_ofBits :
    packGroup slots p = BitVec.ofNat 8 (Nat.ofBits fun k : Fin 8 => (slots k.rev).getLsbD p.val) := by
  have hbit (j : Fin 8) : bitNat (slots j &&& 0x0F#8) p.val = ((slots j).getLsbD p.val).toNat := by
    simp [bitNat, nibble_mask_bit]
  refine congrArg (BitVec.ofNat 8) ?_
  simp [hbit, Nat.ofBits_succ, Nat.shiftLeft_eq]
  omega

/-- The index of R88 takes its bits from the planes, plane 0's for the least significant bit. -/
theorem unpackBits_eq_ofBits (k : Nat) :
    unpackBits bytes k = BitVec.ofNat 8 (Nat.ofBits fun p : Fin 4 => (bytes p).getLsbD k) := by
  refine congrArg (BitVec.ofNat 8) ?_
  simp [bitNat, Nat.ofBits_succ, Nat.shiftLeft_eq]
  omega

/-- Slot `j` of the group owns bit `7 - j` of the byte. -/
theorem packGroup_getLsbD (j : Fin 8) : (packGroup slots p).getLsbD (7 - j.val) = (slots j).getLsbD p.val := by
  have hlt : 7 - j.val < 8 := by omega
  have hrev : (⟨7 - j.val, hlt⟩ : Fin 8).rev = j := Fin.ext (by simp [Fin.val_rev]; omega)
  rw [packGroup_eq_ofBits, BitVec.getLsbD_ofNat, Nat.testBit_ofBits_lt _ _ hlt, hrev, decide_eq_true hlt, Bool.true_and]

theorem unpackBits_getLsbD (k : Nat) : (unpackBits bytes k).getLsbD p.val = (bytes p).getLsbD k := by
  have hlt : p.val < 8 := by omega
  rw [unpackBits_eq_ofBits, BitVec.getLsbD_ofNat, Nat.testBit_ofBits_lt _ _ p.isLt, decide_eq_true hlt, Bool.true_and]

/-- Only four bits of an index can be set. -/
theorem unpackBits_getLsbD_of_le (k : Nat) {i : Nat} (hi : 4 ≤ i) : (unpackBits bytes k).getLsbD i = false := by
  rw [unpackBits_eq_ofBits, BitVec.getLsbD_ofNat, Nat.testBit_ofBits_ge _ _ hi, Bool.and_false]

/-- A byte is the one that packs eight slots when each slot has its bit of the byte. -/
theorem eq_packGroup {b : Byte} (h : ∀ j : Fin 8, b.getLsbD (7 - j.val) = (slots j).getLsbD p.val) :
    b = packGroup slots p := by
  refine BitVec.eq_of_getLsbD_eq fun k hk => ?_
  have hrev : 7 - (7 - k) = k := by omega
  have hbit := (h ⟨7 - k, by omega⟩).trans (packGroup_getLsbD slots p ⟨7 - k, by omega⟩).symm
  rwa [hrev] at hbit

/-- Packing eight indices unpacked from four bytes gives the bytes (R90). -/
theorem packGroup_unpackBits : packGroup (fun j => unpackBits bytes (7 - j.val)) p = bytes p :=
  (eq_packGroup _ p fun j => (unpackBits_getLsbD bytes p (7 - j.val)).symm).symm

/-- Unpacking bit `7 - j` of four bytes packed from eight slots gives the low 4 bits of slot `j` (R90). -/
theorem unpackBits_packGroup (j : Fin 8) : unpackBits (packGroup slots) (7 - j.val) = slots j &&& 0x0F#8 := by
  refine BitVec.eq_of_getLsbD_eq fun i _ => ?_
  rw [BitVec.getLsbD_and, getLsbD_nibble_mask]
  by_cases hi : i < 4
  · have hbit := unpackBits_getLsbD (packGroup slots) ⟨i, hi⟩ (7 - j.val)
    simpa [packGroup_getLsbD, hi] using hbit
  · simp [unpackBits_getLsbD_of_le _ _ (not_lt.mp hi), hi]

/-- The packer is insensitive to the high bits (R90). -/
theorem packGroup_congr {slots slots' : Fin 8 → Byte} (h : ∀ j, slots j &&& 0x0F#8 = slots' j &&& 0x0F#8) :
    packGroup slots p = packGroup slots' p := by
  simp only [packGroup, h]

end Bits

/-- Settles O29: the index is made of one bit of each plane and nothing else. -/
theorem unpackTakesOneBitPerPlane : Obligations.UnpackTakesOneBitPerPlane := by
  unfold Obligations.UnpackTakesOneBitPerPlane
  exact fun bytes k => ⟨unpackBits_lt bytes k, fun p => unpackBits_getLsbD bytes p k⟩

/-! ### The planes that `PACK` leaves (R84, R85, R86) -/

/-- The eight pixels of a used byte are used. -/
theorem pixel_lt_npix {o : Nat} (ho : o < s.ps) (j : Fin 8) : 8 * o + j.val < s.npix := by
  unfold State.ps at ho
  omega

/-- With an aligned width, bit `7 - j` of byte `o` is that of pixel `8o + j`. -/
theorem byte_and_bit_of_pixel {w : Nat} (h8 : w % 8 = 0) (o : Nat) (j : Fin 8) :
    byteOffset (8 * o + j.val) = o ∧ bitPosition w (8 * o + j.val) = 7 - j.val := by
  refine (owns_bit_iff h8 (by omega) _).mpr ?_
  omega

/-- After the loops a used plane byte is the closed form of its eight slots. -/
theorem packed_byte_eq {slot : Nat → Byte} (h8 : s.width.toNat % 8 = 0) (hz : zeroBelow s s.ps = .ok z)
    (hu : packBelow z s.npix = .ok u) (hslots : ∀ n < s.npix, s.idx.read n = some (slot n)) (p : Fin 4) {o : Nat}
    (ho : o < s.ps) : (u.plane p).read o = some (packGroup (fun j => slot (8 * o + j.val)) p) := by
  obtain ⟨b, hb, -⟩ := packed_bit_iff hz hu p ho
  refine hb.trans (congrArg some (eq_packGroup _ p fun j => ?_))
  have hn := pixel_lt_npix ho j
  obtain ⟨hbyte, hbit⟩ := byte_and_bit_of_pixel h8 o j
  obtain ⟨b', hb', hset⟩ := packed_bit_eq h8 hz hu p hn (hslots _ hn)
  rw [hbyte] at hb'
  rw [hbit] at hset
  obtain rfl : b = b' := Option.some.inj (hb.symm.trans hb')
  exact hset

/-- The loops leave the bytes from `PS` on: no pixel of the image lies in one. -/
theorem unused_byte_kept (h8 : s.width.toNat % 8 = 0) (hz : zeroBelow s s.ps = .ok z)
    (hu : packBelow z s.npix = .ok u) (p : Fin 4) {o : Nat} (ho : s.ps ≤ o) :
    (u.plane p).read o = (s.plane p).read o := by
  obtain ⟨-, hzero, -⟩ := zeroBelow_ok hz
  obtain ⟨-, -, hnone, hsome⟩ := packBelow_ok hu
  have hkept : (z.plane p).read o = (s.plane p).read o := by rw [hzero, if_neg (not_lt.mpr ho)]
  rw [← hkept]
  cases hread : (z.plane p).read o with
  | none => exact hnone p o hread
  | some b =>
    obtain ⟨b', hb', hbits⟩ := hsome p o b hread
    refine hb'.trans (congrArg some (BitVec.eq_of_getLsbD_eq fun i hi => Bool.eq_iff_iff.mpr ?_))
    refine (hbits i hi).trans (or_iff_left ?_)
    rintro ⟨n, hn, hbyte, -⟩
    exact ((byteOffset_lt_ps h8 hn).trans_le ho).ne hbyte

/-- Settles O24: the loops of `PACK` write `PLN` alone, its used bytes in closed form. -/
theorem packBuildsThePlanes : Obligations.PackBuildsThePlanes := by
  unfold Obligations.PackBuildsThePlanes
  intro s slot hphase h8 hcap hidx hslots
  obtain ⟨z, u, hz, hu⟩ := pack_loops_answer h8 hcap hidx fun n hn => by simp [hslots n hn]
  refine ⟨_, exec_pack_of_ready hphase h8 hcap hz hu, ?_, fun p o ho => packed_byte_eq h8 hz hu hslots p ho,
    fun p o ho => unused_byte_kept h8 hz hu p ho⟩
  conv_lhs => rw [pack_frame hz hu]
  rfl

/-- Settles O26: the capacity is compared before anything is zeroed, so the trap is all that the command does. -/
theorem packRaisesAllocationFailure : Obligations.PackRaisesAllocationFailure := by
  unfold Obligations.PackRaisesAllocationFailure
  intro s hphase hcap
  have hraise : exec .pack s = raise .allocationFailure s :=
    (whenAdmitted_of_mem _ (by simp [hphase, Phase.live]) (by simp [hphase])).trans (if_pos hcap)
  exact hraise ▸ raise_trapped _ s

/-! ### The slots that `UNPK` leaves (R88, R89) -/

theorem exec_unpk_of_packed (hphase : s.phase = .packed) (h8 : s.width.toNat % 8 = 0)
    (h : unpackBelow s s.npix = .ok t) : exec .unpk s = .next t := by
  refine (whenAdmitted_of_mem _ (by simp [hphase, Phase.live]) (by simp [hphase])).trans ?_
  rw [if_neg (not_not.mpr h8)]
  exact commit_next.mpr h

/-- `UNPK` answers when every used pixel unpacks; it leaves the unpacked indices in the used slots and changes nothing
else. -/
theorem exec_unpk_of_unpacked {v : Nat → Byte} (hphase : s.phase = .packed) (h8 : s.width.toNat % 8 = 0)
    (hpixels : ∀ n < s.npix, n < s.params.idxCap ∧ unpackPixel s n = .ok (v n)) :
    ∃ t, exec .unpk s = .next t ∧ t = { s with idx := t.idx } ∧ (∀ n < s.npix, t.idx.read n = some (v n)) ∧
      ∀ n, s.npix ≤ n → t.idx.read n = s.idx.read n := by
  obtain ⟨t, h⟩ := unpackBelow_answers fun n hn => ⟨(hpixels n hn).1, v n, (hpixels n hn).2⟩
  obtain ⟨hframe, -, -, hused, hrest⟩ := unpackBelow_ok h
  refine ⟨t, exec_unpk_of_packed hphase h8 h, hframe, fun n hn => ?_, hrest⟩
  obtain ⟨-, x, hx, hread⟩ := hused n hn
  obtain rfl : x = v n := Except.ok.inj (hx.symm.trans (hpixels n hn).2)
  exact hread

/-- Settles O28: the byte and the bit of R88 are those of `unpackPixel`. -/
theorem unpkRebuildsTheIndices : Obligations.UnpkRebuildsTheIndices := by
  unfold Obligations.UnpkRebuildsTheIndices
  intro s byte hphase h8 hcap hidx hbytes
  refine exec_unpk_of_unpacked hphase h8 fun n hn => ⟨hn.trans_le hidx, ?_⟩
  have ho := byteOffset_lt_ps h8 hn
  exact unpackPixel_answers (ho.trans_le hcap) fun p => hbytes p _ ho

/-- Settles O31: unpacking reads only the planes, so it gives the values that the slots already hold. -/
theorem secondUnpkChangesNothing : Obligations.SecondUnpkChangesNothing := by
  unfold Obligations.SecondUnpkChangesNothing
  intro s t hphase hunpk
  obtain ⟨-, ⟨hnot, -⟩ | ⟨-, h8, h⟩⟩ := execUnpk_next hunpk
  · exact absurd hphase hnot
  obtain ⟨hframe, -, -, hused, -⟩ := unpackBelow_ok h
  rw [hframe]
  choose! v hpixel hread using fun n hn => (hused n hn).2
  obtain ⟨u, hu, hsame, hslots, hrest⟩ := exec_unpk_of_unpacked (s := s.setIdx t.idx) hphase h8
    fun n hn => ⟨(hused n hn).1, hpixel n hn⟩
  refine ⟨u, hu, hsame, fun n => ?_⟩
  by_cases hn : n < s.npix
  · exact (hslots n hn).trans (hread n hn).symm
  · exact hrest n (not_lt.mp hn)

/-! ### The round trips (R90) -/

/-- Pack, then unpack: the planes in closed form give the low 4 bits of every slot back. -/
theorem unpk_after_pack {slot : Nat → Byte} (hphase : s.phase = .ready) (h8 : s.width.toNat % 8 = 0)
    (hcap : s.ps ≤ s.params.plnCap) (hidx : s.npix ≤ s.params.idxCap)
    (hslots : ∀ n < s.npix, s.idx.read n = some (slot n)) :
    ∃ t u, exec .pack s = .next t ∧ exec .unpk t = .next u ∧
      ∀ n < s.npix, u.idx.read n = some (slot n &&& 0x0F#8) := by
  obtain ⟨t, hpack, hframe, hbytes, -⟩ := packBuildsThePlanes s slot hphase h8 hcap hidx hslots
  rw [hframe] at hpack
  obtain ⟨u, hunpk, -, hread, -⟩ := unpkRebuildsTheIndices { s with pln := t.pln, phase := .packed }
    (fun p o => packGroup (fun j => slot (8 * o + j.val)) p) rfl h8 hcap hidx hbytes
  refine ⟨_, u, hpack, hunpk, fun n hn => (hread n hn).trans (congrArg some ?_)⟩
  have hbit : 7 - n % s.width.toNat % 8 = 7 - n % 8 := bitPosition_eq h8 n
  have hpixel : 8 * (n / 8) + n % 8 = n := Nat.div_add_mod n 8
  have hback := unpackBits_packGroup (fun j => slot (8 * (n / 8) + j.val)) ⟨n % 8, by omega⟩
  simpa only [hbit, hpixel] using hback

/-- A `PACK` that leads to `PACKED` is no trap, so the checks of R86 were passed. -/
theorem checks_of_packed (h : exec .pack s = .next t) (hpacked : t.phase = .packed) :
    s.phase = .ready ∧ s.ps ≤ s.params.plnCap := by
  cases exec_effect h with
  | trap c _ hraise =>
    obtain ⟨-, hhalt, -⟩ := trapped_of_raise hraise
    simp [hpacked] at hhalt
  | pack m hphase hcap => exact ⟨hphase, hcap⟩

/-- Every byte of the planes after a `PACK` that passed its checks. -/
theorem plane_read_of_pack {slot : Nat → Byte} (hphase : s.phase = .ready) (hcap : s.ps ≤ s.params.plnCap)
    (h : exec .pack s = .next t) (hslots : ∀ n < s.npix, s.idx.read n = some (slot n)) (p : Fin 4) (o : Nat) :
    (t.plane p).read o =
      if o < s.ps then some (packGroup (fun j => slot (8 * o + j.val)) p) else (s.plane p).read o := by
  obtain ⟨-, ⟨hnot, -⟩ | ⟨-, hover, -⟩ | ⟨-, -, h8, z, u, hz, hu, rfl⟩⟩ := execPack_next h
  · exact absurd hphase hnot
  · exact absurd hcap (not_le.mpr hover)
  · rw [State.setPhase_plane]
    split_ifs with ho
    · exact packed_byte_eq h8 hz hu hslots p ho
    · exact unused_byte_kept h8 hz hu p (not_lt.mp ho)

/-- The planes depend on the low 4 bits of the slots alone. -/
theorem pack_of_low_bits_eq {m : Mem} (ht : exec .pack s = .next t) (hu : exec .pack (s.setIdx m) = .next u)
    (hpacked : t.phase = .packed)
    (hagree : ∀ n < s.npix, ∃ a b, s.idx.read n = some a ∧ m.read n = some b ∧ a &&& 0x0F#8 = b &&& 0x0F#8)
    (p : Fin 4) (o : Nat) : (t.plane p).read o = (u.plane p).read o := by
  obtain ⟨hphase, hcap⟩ := checks_of_packed ht hpacked
  choose! slot slot' hslot hslot' hlow using hagree
  rw [plane_read_of_pack hphase hcap ht hslot, plane_read_of_pack (s := s.setIdx m) hphase hcap hu hslot']
  by_cases ho : o < s.ps
  · have hgroup := packGroup_congr p fun j => hlow _ (pixel_lt_npix ho j)
    simp [ho, hgroup]
  · simp [ho]

/-- Settles O30: the first law is `PACK` in closed form under `UNPK`, the others are those of the bit permutation. -/
theorem packerRoundTrips : Obligations.PackerRoundTrips := by
  unfold Obligations.PackerRoundTrips
  exact ⟨fun _ _ => unpk_after_pack, packGroup_unpackBits, fun _ _ _ _ => pack_of_low_bits_eq⟩

end Sys2Proof.Proofs.PlanarPacker

/-! ## The raw writer: the size of the output and the precision of traps (44_raw_writer.md) -/

namespace Sys2Proof.Proofs.RawWriter

open Sys2Proof.Machine Sys2Proof.Safety Sys2Proof.Proofs.CoreState

variable {s : State}

/-- An aligned image fills whole bytes, so the division in `PS` is exact (R41, R83). -/
theorem eight_mul_ps (haligned : s.width.toNat % 8 = 0) : 8 * s.ps = s.width.toNat * s.height.toNat :=
  Nat.mul_div_cancel' ((Nat.dvd_of_mod_eq_zero haligned).mul_right _)

/-- The four planes are half as many bytes as the image has pixels (R94). -/
theorem four_mul_ps (haligned : s.width.toNat % 8 = 0) :
    4 * s.ps = 4 * s.width.toNat * s.height.toNat / 8 ∧ 4 * s.ps = s.width.toNat * s.height.toNat / 2 := by
  have hpixels := eight_mul_ps haligned
  rw [Nat.mul_assoc, ← hpixels]
  omega

/-- Settles O33: `OUT` and `COUNT` by item 6 of R33, the closed forms by the alignment of the width (item 3). -/
theorem sizeLaw : Obligations.SizeLaw := by
  unfold Obligations.SizeLaw
  intro s hr hdone
  have haligned := width_aligned hr (.inr (.inr (.inr hdone)))
  obtain ⟨-, -, -, -, -, houtput, -⟩ := hr
  obtain ⟨hlength, hcount⟩ := houtput hdone
  exact ⟨hlength, hcount, rfl, four_mul_ps haligned⟩

/-- Settles O37: a command ends in `HALT` only by trap entry from a live phase, for a cause that R103 gives it; and no
trap of a run has put anything out (O34). -/
theorem trapsArePrecise : Obligations.TrapsArePrecise := by
  unfold Obligations.TrapsArePrecise
  intro i s t h hhalt
  obtain ⟨hcause, htrapped⟩ := trapped_of_exec_halt h hhalt
  obtain ⟨-, -, hempty⟩ := outputIsCompleteOrEmpty
  exact ⟨live_of_exec h, ne_none_of_raisedBy hcause, htrapped, fun hr => hempty i s t hr h hhalt⟩

end Sys2Proof.Proofs.RawWriter

/-! ## `ABORT` in its phases (45_abort.md) -/

namespace Sys2Proof.Proofs.Abort

open Sys2Proof.Machine Sys2Proof.Safety Sys2Proof.Proofs.CoreState

variable {s : State} {i : Instr}

/-- Where the admission table says yes to an `ABORT`, it traps with the cause of its code (R30, R100). -/
theorem abort_traps_of_yes (hyes : admission i s.phase = .yes) :
    (i = .abortUsage → NextSatisfies (exec i s) (Trapped .usageError s)) ∧
    (i = .abortLoad → NextSatisfies (exec i s) (Trapped .resourceLoadError s)) ∧
    (i = .abortWrite → NextSatisfies (exec i s) (Trapped .outputWriteError s)) := by
  obtain ⟨hrows, -⟩ := admissionTable
  obtain ⟨-, -, -, habort⟩ := hrows i s
  exact habort hyes

/-- Settles O35: the table says yes to `ABORT 1` and `ABORT 2` in `IDLE`, and to `ABORT 5` in `PACKED`. -/
theorem abortRaisesItsCause : Obligations.AbortRaisesItsCause := by
  unfold Obligations.AbortRaisesItsCause
  refine fun s => ⟨fun hidle => ?_, fun hidle => ?_, fun hpacked => ?_⟩
  · obtain ⟨husage, -, -⟩ := abort_traps_of_yes (i := .abortUsage) (congrArg (admission _) hidle)
    exact husage rfl
  · obtain ⟨-, hload, -⟩ := abort_traps_of_yes (i := .abortLoad) (congrArg (admission _) hidle)
    exact hload rfl
  · obtain ⟨-, -, hwrite⟩ := abort_traps_of_yes (i := .abortWrite) (congrArg (admission _) hpacked)
    exact hwrite rfl

end Sys2Proof.Proofs.Abort

/-! ## The causes of traps, and the commands that never raise (60_exceptions.md) -/

namespace Sys2Proof.Proofs.Exceptions

open Sys2Proof.Machine Sys2Proof.Safety Sys2Proof.Proofs.CoreState

variable {s t : State} {i : Instr} {c : Cause}

/-- Settles O38: a command ends in `HALT` only by a trap for a cause that R103 gives it. -/
theorem causesComeFromTheirCommands : Obligations.CausesComeFromTheirCommands := by
  unfold Obligations.CausesComeFromTheirCommands
  exact ⟨rfl, fun _ _ _ h hhalt => (trapped_of_exec_halt h hhalt).1⟩

/-- The commands that R103 names for a cause of their own; any other is there only as "any word", under
`IllegalCommand`. -/
def hasOwnCause : Instr → Bool
  | .dim _ _ | .rdix _ | .pack | .abortUsage | .abortLoad | .abortWrite => true
  | .qpix _ _ _ _ | .ldix _ | .unpk | .emit => false

/-- A command with no cause of its own is raised against only out of its phase (R103, R109). -/
theorem admission_trap_of_raisedBy (hown : hasOwnCause i = false) (hcause : RaisedBy c i s) :
    admission i s.phase = .trap := by
  cases c with
  | none => exact hcause.elim
  | usageError | resourceLoadError | outputWriteError =>
    obtain ⟨rfl, -⟩ := hcause
    cases hown
  | constraintViolation =>
    obtain ⟨w, h, rfl, -⟩ := hcause
    cases hown
  | allocationFailure =>
    obtain ⟨w, h, rfl, -⟩ | ⟨rfl, -⟩ := hcause <;> cases hown
  | illegalCommand =>
    obtain htrap | ⟨n, rfl, -⟩ := hcause
    · exact htrap
    · cases hown

/-- Where the admission table says yes, a command with no cause of its own does not end in `HALT` (R30, R110). -/
theorem not_halt_of_yes (hown : hasOwnCause i = false) (hyes : admission i s.phase = .yes)
    (h : exec i s = .next t) : t.phase ≠ .halt := by
  intro hhalt
  obtain ⟨-, hcauses⟩ := causesComeFromTheirCommands
  have htrap := admission_trap_of_raisedBy hown (hcauses i s t h hhalt)
  simp [hyes] at htrap

/-- Settles O39: R103 gives none of the four commands a cause, and the table says yes to each in its phase. -/
theorem whatNeverRaises : Obligations.WhatNeverRaises := by
  unfold Obligations.WhatNeverRaises
  refine fun s t => ⟨fun r g b a hfill => ?_, fun v hfill => ?_, fun hpacked => ?_, fun hpacked => ?_⟩
  · exact not_halt_of_yes rfl (congrArg (admission (.qpix r g b a)) hfill)
  · exact not_halt_of_yes rfl (congrArg (admission (.ldix v)) hfill)
  · exact not_halt_of_yes rfl (congrArg (admission .unpk) hpacked)
  · exact not_halt_of_yes rfl (congrArg (admission .emit) hpacked)

end Sys2Proof.Proofs.Exceptions

/-! ## The reset input (70_reset_and_hazards.md) -/

namespace Sys2Proof.Proofs.Reset

open Sys2Proof.Machine Sys2Proof.Proofs.CoreState

variable {s t : State}

/-- Waiting keeps `PHASE`, so a step that moves a final phase is a reset (R31, R126). -/
theorem reset_of_final_phase_changed (hfinal : s.phase = .done ∨ s.phase = .halt) (h : step s = .next t)
    (hchanged : t.phase ≠ s.phase) : ∃ rest, s.host = .reset :: rest := by
  obtain ⟨-, -, hstays⟩ := finalPhasesHaveNoStep s hfinal
  have hmoved : t ≠ s := fun hts => hchanged (congrArg State.phase hts)
  exact (hstays t h).resolve_left hmoved

/-- Settles O10: on `rst` the step is `resetCore`, whose registers are at their reset values with `PAL` as it was; and
in a final phase every other step that answers keeps the state (O11). -/
theorem resetInputStartsANewRun : Obligations.ResetInputStartsANewRun := by
  unfold Obligations.ResetInputStartsANewRun
  refine ⟨fun s rest hhost => ⟨resetCore (s.setHost rest), step_of_reset hhost, ?_⟩, fun _ _ => ?_⟩
  · simp
  · exact reset_of_final_phase_changed

end Sys2Proof.Proofs.Reset
